-- ==== Sys2Proof/Word.lean ====
section
/-! DEFINITION. The word types of the engine: bytes of the two data channels and 32-bit words
(00_scope.md R9, R11; 10_state.md R17). -/

namespace Sys2Proof

/-- The unit of transfer on the payload and response data channels (20_memory.md R39). -/
abbrev Byte := BitVec 8

/-- "A word is 32 bits" (00_scope.md R9, R11). Every value is unsigned. -/
abbrev Word := BitVec 32

/-- A 16-word value: the cipher state S, or a working state of the permutation
(10_state.md R17; 41_block_function.md R66 to R71). Word `i` stands at row `i / 4`, column `i % 4`. -/
abbrev Words := Vector Word 16

end Sys2Proof
end

