-- ==== Sys2Proof/Machine/Operands.lean ====
section
/-! DEFINITION. The little_endian_state_packer (42_le_packer.md): bytes to words, words to bytes, the constant
string, the block index. Pure conversion; no state, no error (R86). -/

namespace Sys2Proof.Machine

/-- `le_word(b0, b1, b2, b3)` (42_le_packer.md R89). -/
def leWord (b0 b1 b2 b3 : Byte) : Word :=
  b0.setWidth 32 ||| b1.setWidth 32 <<< 8 ||| b2.setWidth 32 <<< 16 ||| b3.setWidth 32 <<< 24

/-- `le_bytes(w) = [w[7:0], w[15:8], w[23:16], w[31:24]]` (42_le_packer.md R90). -/
def leBytes (w : Word) : List Byte :=
  [w.extractLsb' 0 8, w.extractLsb' 8 8, w.extractLsb' 16 8, w.extractLsb' 24 8]

/-- Inbound packing: word `i` of the result is `le_word` of bytes `4i .. 4i+3` (42_le_packer.md R91, R92).
A last group of fewer than four bytes gives no word; "input lengths are always exact multiples of 4
bytes" (R86). -/
def packWords : List Byte → List Word
  | b0 :: b1 :: b2 :: b3 :: rest => leWord b0 b1 b2 b3 :: packWords rest
  | _ => []

/-- `S[base + i] <- ws[i]` for each word of the list in order; an index above 15 is not written
(42_le_packer.md R91, R92). -/
def putWords : List Word → Nat → Words → Words
  | [], _, S => S
  | w :: ws, base, S => putWords ws (base + 1) (S.setIfInBounds base w)

/-- The constant string σ: the 16 ASCII bytes of "expand 32-byte k" (42_le_packer.md R87). -/
def sigma : List Byte :=
  [0x65, 0x78, 0x70, 0x61, 0x6e, 0x64, 0x20, 0x33, 0x32, 0x2d, 0x62, 0x79, 0x74, 0x65, 0x20, 0x6b]

/-- The constant words `C[i] = le_word(σ[4i], ..)` (42_le_packer.md R88). -/
def constWords : List Word := packWords sigma

/-- `serialize(w) = le_bytes(w[0]) ++ .. ++ le_bytes(w[15])` (42_le_packer.md R93). -/
def serialize (x : Words) : List Byte := x.toList.flatMap leBytes

/-- A little-endian number of any length: `Σ b[j] * 2^(8j)`. -/
def leNat : List Byte → Nat
  | [] => 0
  | b :: bs => b.toNat + 256 * leNat bs

/-- `le_u64(b[0..7])` (42_le_packer.md R94): the first eight bytes of the list. -/
def leU64 (bs : List Byte) : BitVec 64 := BitVec.ofNat 64 (leNat (bs.take 8))

/-- The "le_u64 bytes of index" of 30_encoding.md R56: eight bytes, least significant first. -/
def leU64Bytes (v : BitVec 64) : List Byte :=
  (List.range 8).map fun j => v.extractLsb' (8 * j) 8

end Sys2Proof.Machine
end

