-- ==== Sys2Proof/Config.lean ====
section
/-! DEFINITION. The construction-time parameters ROUNDS and NONCE_MODE (00_scope.md R6, R7) and the one
free value of the model. What follows from the parameters (W, NLEN, NBASE, MAXIDX, LIMIT) is in
Machine/Params.lean. -/

namespace Sys2Proof

/-- ROUNDS, "a construction-time constant with R in {8, 12, 20}" (00_scope.md R6). -/
inductive Rounds where
  | r8
  | r12
  | r20
deriving DecidableEq, Repr

/-- NONCE_MODE, the two pairings of nonce length and counter width the spec admits (00_scope.md R7). -/
inductive NonceMode where
  /-- 8-byte nonce, 64-bit counter in S[12..13]. -/
  | n64
  /-- 12-byte nonce, 32-bit counter in S[12]. -/
  | n96
deriving DecidableEq, Repr

/-- One configuration of the engine, "fixed when the instance is built" (70_reset_and_hazards.md R155). -/
structure Config where
  rounds : Rounds
  nonceMode : NonceMode
deriving DecidableEq, Repr

/-- The configuration named where a single one is needed: ROUNDS = 20, NONCE_MODE = N64
(00_scope.md R6, R7). -/
def Config.default : Config := { rounds := .r20, nonceMode := .n64 }

/-- Building an instance from a round count: "any other value is refused at construction"
(00_scope.md R6). -/
def Config.construct (roundCount : Nat) (mode : NonceMode) : Option Config :=
  if roundCount = 8 then some { rounds := .r8, nonceMode := mode }
  else if roundCount = 12 then some { rounds := .r12, nonceMode := mode }
  else if roundCount = 20 then some { rounds := .r20, nonceMode := mode }
  else none

/-- FREE VALUE (DESIGN CHOICE, notes/assumptions/4.md; safe). The words a reset event leaves in S:
"S[0..15] <- unspecified" (70_reset_and_hazards.md R151). It has no body, so no proof can see a value
of it. The argument is the counter `State.free`. -/
opaque Config.freeWord : Nat → Word

end Sys2Proof
end

