-- ==== Sys2Proof/Machine/Params.lean ====
section
/-! DEFINITION. What follows from the parameters, "used by name in every file" (00_scope.md R6, R8), and
their codes in STATUS (10_state.md R29). -/

namespace Sys2Proof

/-- The round count R (00_scope.md R6). -/
def Rounds.count : Rounds → Nat
  | .r8 => 8
  | .r12 => 12
  | .r20 => 20

/-- RCFG, STATUS[9:8]: 0 = 8 rounds, 1 = 12 rounds, 2 = 20 rounds (10_state.md R29). -/
def Rounds.rcfg : Rounds → BitVec 2
  | .r8 => 0
  | .r12 => 1
  | .r20 => 2

/-- W, the counter width in bits (00_scope.md R8). -/
def NonceMode.ctrWidth : NonceMode → Nat
  | .n64 => 64
  | .n96 => 32

/-- NLEN, the nonce length in bytes (00_scope.md R8). -/
def NonceMode.nonceLen : NonceMode → Nat
  | .n64 => 8
  | .n96 => 12

/-- NBASE, the index of the first nonce word (00_scope.md R8). -/
def NonceMode.nonceBase : NonceMode → Nat
  | .n64 => 14
  | .n96 => 13

/-- MAXIDX = 2^W - 1, the largest block index (00_scope.md R8). -/
def NonceMode.maxIdx (m : NonceMode) : Nat := 2 ^ m.ctrWidth - 1

/-- LIMIT = 2^W * 64, the number of keystream bytes in one (key, nonce) stream (00_scope.md R8). -/
def NonceMode.limit (m : NonceMode) : Nat := 2 ^ m.ctrWidth * 64

/-- NMODE, STATUS[10]: 0 = N64, 1 = N96 (10_state.md R29). -/
def NonceMode.nmode : NonceMode → BitVec 1
  | .n64 => 0
  | .n96 => 1

end Sys2Proof
end

