-- ==== Sys2Proof/Machine/QuarterRound.lean ====
section
/-! DEFINITION. The quarter_round_unit (40_quarter_round.md): modular addition, rotation, the quarter-round and
its application to four positions of a 16-word value. -/

namespace Sys2Proof.Machine

/-- `x +32 y = (x + y) mod 2^32`: no carry leaves the unit (40_quarter_round.md R57). -/
def add32 (x y : Word) : Word := x + y

/-- `rotl32(x, n) = ((x << n) | (x >> (32 - n))) mod 2^32` (40_quarter_round.md R59). -/
def rotl32 (x : Word) (n : Nat) : Word := x <<< n ||| x >>> (32 - n)

/-- `QR(a, b, c, d)`, the twelve operations "in exact order" (40_quarter_round.md R60, R61). -/
def quarterRound (a b c d : Word) : Word × Word × Word × Word :=
  -- step 1
  let a := add32 a b
  let d := d ^^^ a
  let d := rotl32 d 16
  -- step 2
  let c := add32 c d
  let b := b ^^^ c
  let b := rotl32 b 12
  -- step 3
  let a := add32 a b
  let d := d ^^^ a
  let d := rotl32 d 8
  -- step 4
  let c := add32 c d
  let b := b ^^^ c
  let b := rotl32 b 7
  (a, b, c, d)

/-- Four positions of a 16-word value: i supplies a, j supplies b, k supplies c and l supplies d
(40_quarter_round.md R63). -/
structure Quad where
  i : Fin 16
  j : Fin 16
  k : Fin 16
  l : Fin 16
deriving DecidableEq, Repr

/-- `ApplyQR(x, (i, j, k, l))` (40_quarter_round.md R63). It is only called with four distinct positions (R64). -/
def applyQR (x : Words) (q : Quad) : Words :=
  match quarterRound x[q.i] x[q.j] x[q.k] x[q.l] with
  | (a, b, c, d) => (((x.set q.i a).set q.j b).set q.k c).set q.l d

end Sys2Proof.Machine
end

