-- ==== Sys2Proof/Machine/BlockFunction.lean ====
section
/-! DEFINITION. The block_keystream_generator (41_block_function.md): rounds, permutation, feed-forward, block,
keystream block, and the keystream of a (key, nonce) stream. Pure functions: they read their arguments and write
no engine state (R73). -/

namespace Sys2Proof.Machine

/-- The index sets of the column round, in order (41_block_function.md R66). -/
def columnQuads : List Quad := [⟨0, 4, 8, 12⟩, ⟨1, 5, 9, 13⟩, ⟨2, 6, 10, 14⟩, ⟨3, 7, 11, 15⟩]

/-- The index sets of the diagonal round, in order (41_block_function.md R67). -/
def diagonalQuads : List Quad := [⟨0, 5, 10, 15⟩, ⟨1, 6, 11, 12⟩, ⟨2, 7, 8, 13⟩, ⟨3, 4, 9, 14⟩]

/-- `ColumnRound(x)` (41_block_function.md R66). -/
def columnRound (x : Words) : Words := columnQuads.foldl applyQR x

/-- `DiagonalRound(x)` (41_block_function.md R67). -/
def diagonalRound (x : Words) : Words := diagonalQuads.foldl applyQR x

/-- `DoubleRound(x) = DiagonalRound(ColumnRound(x))` (41_block_function.md R68). -/
def doubleRound (x : Words) : Words := diagonalRound (columnRound x)

/-- `n` double rounds, one after another (41_block_function.md R69). -/
def doubleRounds : Nat → Words → Words
  | 0, w => w
  | n + 1, w => doubleRounds n (doubleRound w)

/-- `Permute(x, R)`: R / 2 double rounds on a private copy (41_block_function.md R69). -/
def permute (x : Words) (r : Rounds) : Words := doubleRounds (r.count / 2) x

/-- `FeedForward(w, x)[i] = w[i] +32 x[i]` (41_block_function.md R70). -/
def feedForward (w x : Words) : Words := Vector.ofFn fun i => add32 w[i] x[i]

/-- `Block(x, R) = FeedForward(Permute(x, R), x)` (41_block_function.md R71). -/
def block (x : Words) (r : Rounds) : Words := feedForward (permute x r) x

/-- `KS(x, R) = serialize(Block(x, R))`, 64 bytes (41_block_function.md R72). -/
def ks (x : Words) (r : Rounds) : List Byte := serialize (block x r)

/-- `Ctr(S)`: {S[13], S[12]} under N64, S[12] under N96 (10_state.md R22). -/
def ctrOf (m : NonceMode) (S : Words) : Nat :=
  match m with
  | .n64 => (S[13] ++ S[12]).toNat
  | .n96 => S[12].toNat

/-- `WithCtr(S, idx)`: S with its counter words replaced (10_state.md R22). Callers keep idx <= MAXIDX. -/
def withCtr (m : NonceMode) (S : Words) (idx : Nat) : Words :=
  match m with
  | .n64 => (S.set 12 (BitVec.ofNat 32 idx)).set 13 (BitVec.ofNat 32 (idx / 2 ^ 32))
  | .n96 => S.set 12 (BitVec.ofNat 32 idx)

/-- `KSByte(p) = KS(WithCtr(S, p / 64), ROUNDS)[p % 64]` (41_block_function.md R76). A block has 64 bytes, so the
default 0 is never taken. -/
def ksByte (cfg : Config) (S : Words) (p : Nat) : Byte :=
  (ks (withCtr cfg.nonceMode S (p / 64)) cfg.rounds).getD (p % 64) 0

/-- How many blocks the bytes at offsets ofs .. ofs + n - 1 need: ceil((OFS + LEN) / 64), 0 when LEN = 0
(70_reset_and_hazards.md R161). -/
def blocksFor (ofs n : Nat) : Nat := if n = 0 then 0 else (ofs + n + 63) / 64

/-- The `n` keystream bytes from position `p` on. Each block is computed once, as the source says ("for each 64-byte
keystream block consumed, generate it", 44_cmd_stream.md R123); byte `k` is KSByte(p + k) (notes/assumptions/13.md). -/
def keystream (cfg : Config) (S : Words) (p n : Nat) : List Byte :=
  (((List.range (blocksFor (p % 64) n)).flatMap fun j =>
      ks (withCtr cfg.nonceMode S (p / 64 + j)) cfg.rounds).drop (p % 64)).take n

end Sys2Proof.Machine
end

