-- ==== Sys2Proof/Syntax.lean ====
section
/-! DEFINITION. The commands as syntax: one constructor of `Instr` for each row of spec/opcode_table.json
(30_encoding.md R48), a command as it stands on the port (R46), and the pseudo-instructions of R56. -/

namespace Sys2Proof

/-- COMBINE's `operation` operand, DIR = CW[8] (30_encoding.md R52). -/
inductive Dir where
  | encrypt
  | decrypt
deriving DecidableEq, Repr

/-- The seven commands with their operands. The payload is part of the command (30_encoding.md R46), so the
byte lists are operands and the length fields KLEN, NLEN and LEN are their lengths
(R49, R50, R52; notes/assumptions/9.md). -/
inductive Instr where
  /-- INIT, format FK: key bytes, then nonce bytes (R49, R101). -/
  | init (key nonce : List Byte)
  /-- RESYNC, format FN: the new nonce's bytes (R50, R106). -/
  | resync (nonce : List Byte)
  /-- SEEK, format F0 with an 8-byte block index (R51, R111). -/
  | seek (idx : BitVec 64)
  /-- KSBLK, format F0 (R119). -/
  | ksblk
  /-- KSBLK_IDX, format F0 with an 8-byte block index (R51, R115). -/
  | ksblkIdx (idx : BitVec 64)
  /-- COMBINE, format FD: DIR and the data bytes (R52, R123). -/
  | combine (dir : Dir) (data : List Byte)
  /-- STATUS, format F0 (R129). -/
  | status
deriving DecidableEq, Repr

/-- A command on the port: "a pair (CW, Payload)" (30_encoding.md R46). -/
structure Command where
  cw : Word
  payload : List Byte
deriving DecidableEq, Repr

/-- The pseudo-instructions of 30_encoding.md R56. -/
inductive Pseudo where
  | encrypt (data : List Byte)
  | decrypt (data : List Byte)
  | keystream (n : Nat)
  | rewind
  /-- `COMBINE` over data of any length, cut into pieces of at most 65535 bytes. -/
  | combineLong (dir : Dir) (data : List Byte)
deriving DecidableEq, Repr

/-- The largest COMBINE length: the LEN field has 16 bits (00_scope.md R9, 30_encoding.md R52). -/
def maxCombine : Nat := 65535

end Sys2Proof
end

