-- ==== Sys2Proof/WellFormed.lean ====
section
/-! DEFINITION. Well-formed instructions: those a command word can carry, that is, whose byte lists fit the
length fields of their format (30_encoding.md R49, R50, R52). A length the engine rejects at execution
(a 16-byte key) is well formed: "Every length is encodable" (R49). -/

namespace Sys2Proof

/-- KLEN and NLEN are 8-bit fields (R49, R50); LEN is a 16-bit field (R52). -/
def Instr.wf : Instr → Bool
  | .init key nonce => decide (key.length < 256) && decide (nonce.length < 256)
  | .resync nonce => decide (nonce.length < 256)
  | .seek _ => true
  | .ksblk => true
  | .ksblkIdx _ => true
  | .combine _ data => decide (data.length < 65536)
  | .status => true

end Sys2Proof
end

