-- ==== Sys2Proof/Decode.lean ====
section
/-! DEFINITION. Command encoding (30_encoding.md): the payload length of every command word, the opcode table,
the decoder (total, rejecting by name), the encoder, and the framing of a byte transport (20_memory.md R36). -/

namespace Sys2Proof

open Sys2Proof.Machine

/-! ### Fields of the command word (R47, R49, R50, R52) -/

/-- OPC = CW[7:0], in every format. -/
def opcField (cw : Word) : Byte := cw.extractLsb' 0 8

/-- KLEN = CW[23:16], format FK. -/
def klenField (cw : Word) : Byte := cw.extractLsb' 16 8

/-- NLEN = CW[31:24], formats FK and FN. -/
def nlenField (cw : Word) : Byte := cw.extractLsb' 24 8

/-- LEN = CW[31:16], format FD. -/
def lenField (cw : Word) : BitVec 16 := cw.extractLsb' 16 16

/-- DIR = CW[8], format FD: 0 = Encrypt, 1 = Decrypt. -/
def dirField (cw : Word) : Dir := if cw.getLsbD 8 then .decrypt else .encrypt

/-- PLEN(CW), "a function of CW alone, and it is computed the same way whether or not the word is legal"
(R53). -/
def plen (cw : Word) : Nat :=
  if opcField cw = 0x01 then (klenField cw).toNat + (nlenField cw).toNat
  else if opcField cw = 0x02 then (nlenField cw).toNat
  else if opcField cw = 0x03 then 8
  else if opcField cw = 0x05 then 8
  else if opcField cw = 0x06 then (lenField cw).toNat
  else 0

/-! ### The opcode map (R48) -/

/-- The rows of the opcode map, by mnemonic. -/
inductive Opcode where
  | INIT
  | RESYNC
  | SEEK
  | KSBLK
  | KSBLK_IDX
  | COMBINE
  | STATUS
deriving DecidableEq, Repr

/-- One row: "A word CW selects a row when (CW & mask) = match" (R48). -/
structure OpRow where
  op : Opcode
  pattern : Word
  mask : Word
deriving DecidableEq, Repr

/-- The opcode map, row for row (R48). -/
def opcodeTable : List OpRow :=
  [⟨.INIT, 0x00000001, 0x0000FFFF⟩,
   ⟨.RESYNC, 0x00000002, 0x00FFFFFF⟩,
   ⟨.SEEK, 0x00000003, 0xFFFFFFFF⟩,
   ⟨.KSBLK, 0x00000004, 0xFFFFFFFF⟩,
   ⟨.KSBLK_IDX, 0x00000005, 0xFFFFFFFF⟩,
   ⟨.COMBINE, 0x00000006, 0x0000FEFF⟩,
   ⟨.STATUS, 0x00000007, 0xFFFFFFFF⟩]

/-- The selection rule of R48. -/
def OpRow.selects (r : OpRow) (cw : Word) : Bool := cw &&& r.mask == r.pattern

/-- The row a command word selects, if any. -/
def selectRow (cw : Word) : Option Opcode := (opcodeTable.find? (·.selects cw)).map (·.op)

/-! ### Decoder -/

/-- Why a command is not an instruction. The first three are the cases of R55, answered with IllegalCommand;
the fourth is the broken host duty of R46. -/
inductive Reject where
  /-- OPC = 0x00. -/
  | opcZero
  /-- OPC in 0x08 to 0xFF. -/
  | unassignedOpc
  /-- OPC in 0x01 to 0x07 with an RSV bit of its format set. -/
  | reservedBit
  /-- The payload's length is not PLEN(CW). -/
  | payloadLength
  /-- A byte stream that ends inside a command (byte transports only). -/
  | truncated
deriving DecidableEq, Repr

/-- Which case of R55 a word that selects no row falls under. -/
def illegalReason (cw : Word) : Reject :=
  if opcField cw = 0x00 then .opcZero
  else if opcField cw ≤ 0x07 then .reservedBit
  else .unassignedOpc

/-- The instruction of a row, its operands taken from the word and the payload (R49 to R52). -/
def operandsOf (cw : Word) (payload : List Byte) : Opcode → Instr
  | .INIT =>
    let klen := (klenField cw).toNat
    .init (payload.take klen) ((payload.drop klen).take (nlenField cw).toNat)
  | .RESYNC => .resync (payload.take (nlenField cw).toNat)
  | .SEEK => .seek (leU64 payload)
  | .KSBLK => .ksblk
  | .KSBLK_IDX => .ksblkIdx (leU64 payload)
  | .COMBINE => .combine (dirField cw) (payload.take (lenField cw).toNat)
  | .STATUS => .status

/-- The decoder of a command on the port: total, and every rejection has a name. The framing duty of R46
comes first, because it holds for legal and illegal words alike. -/
def decode (c : Command) : Except Reject Instr :=
  if c.payload.length ≠ plen c.cw then .error .payloadLength
  else
    match selectRow c.cw with
    | none => .error (illegalReason c.cw)
    | some op => .ok (operandsOf c.cw c.payload op)

/-! ### Encoder (written from the formats of R47 and the table of R56) -/

/-- DIR's bit in its place, CW[8] (R47, R52). -/
def dirBit : Dir → Word
  | .encrypt => 0x000
  | .decrypt => 0x100

/-- The command of an instruction (R56). -/
def encode : Instr → Command
  | .init key nonce =>
    ⟨0x01 ||| BitVec.ofNat 32 key.length <<< 16 ||| BitVec.ofNat 32 nonce.length <<< 24, key ++ nonce⟩
  | .resync nonce => ⟨0x02 ||| BitVec.ofNat 32 nonce.length <<< 24, nonce⟩
  | .seek idx => ⟨0x00000003, leU64Bytes idx⟩
  | .ksblk => ⟨0x00000004, []⟩
  | .ksblkIdx idx => ⟨0x00000005, leU64Bytes idx⟩
  | .combine dir data => ⟨0x06 ||| dirBit dir ||| BitVec.ofNat 32 data.length <<< 16, data⟩
  | .status => ⟨0x00000007, []⟩

/-! ### Byte transport (20_memory.md R36, 30_encoding.md R46) -/

/-- A command as a byte transport carries it: the word little-endian, then the payload. -/
def Command.toBytes (c : Command) : List Byte := leBytes c.cw ++ c.payload

/-- The first command of a byte stream and the bytes after it. The payload's length comes from the word alone,
legal or not, so "a host and the engine agree on where the next command starts" (R53). `none`: the stream ends
inside a command. -/
def frame : List Byte → Option (Command × List Byte)
  | b0 :: b1 :: b2 :: b3 :: rest =>
    let cw := leWord b0 b1 b2 b3
    if rest.length < plen cw then none
    else some (⟨cw, rest.take (plen cw)⟩, rest.drop (plen cw))
  | _ => none

/-- The decoder on any bytes: the first command's instruction and the bytes after it. -/
def decodeBytes (bs : List Byte) : Except Reject (Instr × List Byte) :=
  match frame bs with
  | none => .error .truncated
  | some (c, rest) =>
    match decode c with
    | .ok i => .ok (i, rest)
    | .error r => .error r

/-! ### The opcode table's numbering of bits (bit 0 is the least significant bit of the command word) -/

/-- Byte `j` of an instruction whose first `nbits` bits are `w` and whose other bits are zero. -/
def tableByte (nbits w j : Nat) : Byte := BitVec.ofNat 8 ((w % 2 ^ nbits) >>> (8 * j))

/-- The bytes of that instruction as they are stored: four bytes of command word, then the payload bytes the
word asks for (zeros above `nbits`; notes/assumptions/14.md). -/
def tableBytes (nbits w : Nat) : List Byte :=
  let cw := leWord (tableByte nbits w 0) (tableByte nbits w 1) (tableByte nbits w 2) (tableByte nbits w 3)
  (List.range (4 + plen cw)).map (tableByte nbits w)

/-- The command whose bits are `w`. -/
def tableCommand (nbits w : Nat) : Command :=
  match frame (tableBytes nbits w) with
  | some (c, _) => c
  | none => ⟨0, []⟩

/-- The instruction this decoder reads from a word of the opcode table. -/
def decodeTableWord (nbits w : Nat) : Option Instr :=
  match decodeBytes (tableBytes nbits w) with
  | .ok (i, _) => some i
  | .error _ => none

end Sys2Proof
end

