-- ==== Sys2Proof/Machine/State.lean ====
section
/-! DEFINITION. The state of one engine instance as plain data (10_state.md), its two ports, the reasons a step
can stop, and the state after reset (10_state.md R33; 70_reset_and_hazards.md R151). -/

namespace Sys2Proof.Machine

/-- The RESULT codes' names (30_encoding.md R54): "A model's result type has exactly codes 0x00 to 0x05"
(93_implementation_defined.md U15). -/
inductive Result where
  | ok
  | invalidKeyLength
  | invalidNonceLength
  | counterOverflow
  | notInitialized
  | illegalCommand
deriving DecidableEq, Repr

/-- A response: the header word RH and the data bytes that follow it (30_encoding.md R54). -/
structure Response where
  header : Word
  data : List Byte
deriving DecidableEq, Repr

/-- What the host can do to the engine (60_exceptions.md R150; 70_reset_and_hazards.md R151). -/
inductive HostEvent where
  /-- Send a command word and its payload (30_encoding.md R46). -/
  | command (c : Command)
  /-- Assert the reset input. `inProgress` is the command the reset interrupts, if any: "any command in progress
  is abandoned: it has no response and no effect" (70_reset_and_hazards.md R151). -/
  | reset (inProgress : Option Command)
deriving DecidableEq, Repr

/-- Why a step stops. -/
inductive Fault where
  /-- Raised by `step` for a transaction whose payload length is not PLEN(CW): a broken host duty, for which "a model
  gives such a transaction no step" (30_encoding.md R46; 60_exceptions.md R150, H-4). Safe: the model stops where
  the hardware may go on (notes/assumptions/8.md). -/
  | payloadLength
deriving DecidableEq, Repr

/-- Why an instruction has no meaning. -/
inductive Refusal where
  /-- Raised by an arm of `exec` that has no meaning yet, with the row's mnemonic. Safe: the model stops. No arm
  raises it: every row of the opcode table has its meaning. -/
  | notModelled (mnemonic : String)
deriving DecidableEq, Repr

/-- The state of one engine instance. -/
structure State where
  /-- ROUNDS and NONCE_MODE: fixed, no step writes them (10_state.md R30; notes/assumptions/1.md). -/
  cfg : Config
  /-- The cipher state words S[0..15] (10_state.md R17). -/
  S : Words
  /-- INIT_F: an INIT has succeeded since reset (10_state.md R28). -/
  initF : Bool
  /-- EXH: the position cursor has reached LIMIT (10_state.md R26). -/
  exh : Bool
  /-- OFS: the intra-block offset (10_state.md R25). -/
  ofs : BitVec 6
  /-- The command port: events presented by the host and not accepted yet, the next one first
  (30_encoding.md R46; notes/assumptions/6.md). -/
  inputs : List HostEvent
  /-- The response port: every response sent, oldest first (30_encoding.md R54; notes/assumptions/7.md). -/
  responses : List Response
  /-- The MODEL's own counter of free values; the hardware has no such register (notes/assumptions/5.md). -/
  free : Nat
deriving DecidableEq, Repr

/-- An instance of configuration `cfg` after power-on reset (10_state.md R33). The spec leaves S unspecified;
the zeros are this model's (DESIGN CHOICE, notes/assumptions/3.md). -/
def State.powerOn (cfg : Config) : State :=
  { cfg := cfg
    S := Vector.replicate 16 0
    initF := false
    exh := false
    ofs := 0
    inputs := []
    responses := []
    free := 0 }

/-- The machine right after reset, in the default configuration ROUNDS = 20, N64 (00_scope.md R6, R7). -/
def State.reset : State := State.powerOn Config.default

/-- Building an instance (00_scope.md R6): refused for a round count other than 8, 12 and 20. -/
def State.construct (roundCount : Nat) (mode : NonceMode) : Option State :=
  (Config.construct roundCount mode).map State.powerOn

end Sys2Proof.Machine
end

