-- ==== Sys2Proof/Machine/Ops.lean ====
section
/-! DEFINITION. The named operations the commands share: the response, the error (this hardware's only
"exception"), the counter and the position cursor, loading words, the stream restart, and reset. -/

namespace Sys2Proof.Machine

/-! ### Responses and errors -/

/-- The RESULT codes (30_encoding.md R54). -/
def Result.code : Result → Word
  | .ok => 0x00
  | .invalidKeyLength => 0x01
  | .invalidNonceLength => 0x02
  | .counterOverflow => 0x03
  | .notInitialized => 0x04
  | .illegalCommand => 0x05

/-- The response `respond(code, data)` sends: RH = code | (len(data) << 16), then the bytes (30_encoding.md R54). -/
def mkResponse (r : Result) (data : List Byte) : Response :=
  { header := r.code ||| BitVec.ofNat 32 data.length <<< 16, data := data }

/-- RESULT = RH[7:0] (30_encoding.md R54). -/
def Response.resultField (r : Response) : Byte := r.header.extractLsb' 0 8

/-- DLEN = RH[31:16] (30_encoding.md R54). -/
def Response.dlen (r : Response) : BitVec 16 := r.header.extractLsb' 16 16

/-- The response as a byte transport carries it (20_memory.md R36). -/
def Response.toBytes (r : Response) : List Byte := leBytes r.header ++ r.data

/-- `respond(code, data)`: one response leaves on the response port. -/
def respond (r : Result) (data : List Byte) (s : State) : State :=
  { s with responses := s.responses ++ [mkResponse r data] }

/-- `fail(code)`: TAKING AN ERROR. It "is `respond(code, [])` with no state written" (43_cmd_setup.md R99;
60_exceptions.md R140). There is no trap entry: nothing is saved, no mode or mask changes, no vector is used, and so
there is no return from it either (R143, R144). -/
def fail (r : Result) (s : State) : State := respond r [] s

/-- Stage 2 of every command but INIT and STATUS: "if INIT_F = 0: fail(NotInitialized)" (43_cmd_setup.md R99). -/
def whenInitialized (s : State) (body : Host.Outcome State Fault Refusal) : Host.Outcome State Fault Refusal :=
  if s.initF then body else .next (fail .notInitialized s)

/-- What the engine does with a command that decodes to no instruction: an illegal word fails with IllegalCommand,
its payload discarded (30_encoding.md R55; 60_exceptions.md R137); a payload of the wrong length has no step
(30_encoding.md R46). -/
def rejectCommand (r : Reject) (s : State) : Host.Outcome State Fault Refusal :=
  match r with
  | .opcZero => .next (fail .illegalCommand s)
  | .unassignedOpc => .next (fail .illegalCommand s)
  | .reservedBit => .next (fail .illegalCommand s)
  | .payloadLength => .fault .payloadLength
  | .truncated => .fault .payloadLength

/-! ### Counter and position cursor -/

/-- `Ctr(S)` of the current state (10_state.md R22). -/
def State.ctr (s : State) : Nat := ctrOf s.cfg.nonceMode s.S

/-- `SetCtr(idx)` (10_state.md R22). Callers keep idx <= MAXIDX. -/
def setCtr (idx : Nat) (s : State) : State := { s with S := withCtr s.cfg.nonceMode s.S idx }

/-- `Pos()`, the position cursor (10_state.md R27). -/
def State.pos (s : State) : Nat :=
  if s.exh then s.cfg.nonceMode.limit else s.ctr * 64 + s.ofs.toNat

/-- `SetPos(p)`, for p <= LIMIT (10_state.md R27). -/
def setPos (p : Nat) (s : State) : State :=
  if p = s.cfg.nonceMode.limit then
    { setCtr s.cfg.nonceMode.maxIdx s with exh := true, ofs := 0 }
  else
    { setCtr (p / 64) s with exh := false, ofs := BitVec.ofNat 6 (p % 64) }

/-- `ResetStream()`: counter, OFS and EXH to zero (43_cmd_setup.md R100). -/
def resetStream (s : State) : State := { setCtr 0 s with ofs := 0, exh := false }

/-! ### Loading words of S -/

/-- "for i in 0..3: S[i] <- C[i]" (43_cmd_setup.md R101; 42_le_packer.md R88). -/
def loadConstants (s : State) : State := { s with S := putWords constWords 0 s.S }

/-- "for i in 0..7: S[4+i] <- le_word(key[4i .. 4i+3])" (43_cmd_setup.md R101; 42_le_packer.md R91). -/
def loadKey (key : List Byte) (s : State) : State := { s with S := putWords (packWords key) 4 s.S }

/-- "for i in 0..NLEN/4-1: S[NBASE+i] <- le_word(nonce[4i .. 4i+3])" (43_cmd_setup.md R101, R106;
42_le_packer.md R92). -/
def loadNonce (nonce : List Byte) (s : State) : State :=
  { s with S := putWords (packWords nonce) s.cfg.nonceMode.nonceBase s.S }

/-! ### Combining -/

/-- `out[k] <- data[k] ^ KSByte(p + k)` for k in 0..LEN-1 (44_cmd_stream.md R123). -/
def combineBytes (cfg : Config) (S : Words) (p : Nat) (data : List Byte) : List Byte :=
  List.zipWith (· ^^^ ·) data (keystream cfg S p data.length)

/-! ### Idle and reset -/

/-- With no command presented the engine is "idle and keeps its whole state" (60_exceptions.md R149). -/
def idle (s : State) : State := s

/-- Sixteen free words, numbered from `n` (notes/assumptions/4.md). -/
def freeWords (n : Nat) : Words := Vector.ofFn fun i => Config.freeWord (n + i.val)

/-- The reset input (70_reset_and_hazards.md R151): INIT_F, EXH and OFS become 0, S becomes unspecified (free values,
notes/assumptions/4.md); ROUNDS and NONCE_MODE are not reset (R155). The two ports are outside the reset: responses
already sent stay sent, and events the host presents later stay to come (notes/assumptions/7.md). -/
def hardwareReset (s : State) : State :=
  { s with S := freeWords s.free, initF := false, exh := false, ofs := 0, free := s.free + 16 }

end Sys2Proof.Machine
end

