-- ==== Sys2Proof/Machine/Setup.lean ====
section
/-! DEFINITION. The setup commands INIT and RESYNC (43_cmd_setup.md). -/

namespace Sys2Proof.Machine

/-- INIT (43_cmd_setup.md R101 to R105): the key length is checked first, then the nonce length; a successful INIT
writes all 16 words, and a failing one writes nothing. -/
def execInit (key nonce : List Byte) (s : State) : Host.Outcome State Fault Refusal :=
  if key.length ≠ 32 then .next (fail .invalidKeyLength s)
  else if nonce.length ≠ s.cfg.nonceMode.nonceLen then .next (fail .invalidNonceLength s)
  else
    let s := loadNonce nonce (loadKey key (loadConstants s))
    .next (respond .ok [] { resetStream s with initF := true })

/-- RESYNC (43_cmd_setup.md R106 to R108): replaces the nonce words and restarts the stream, keeping constants
and key. -/
def execResync (nonce : List Byte) (s : State) : Host.Outcome State Fault Refusal :=
  whenInitialized s <|
    if nonce.length ≠ s.cfg.nonceMode.nonceLen then .next (fail .invalidNonceLength s)
    else .next (respond .ok [] (resetStream (loadNonce nonce s)))

end Sys2Proof.Machine
end

