-- ==== Sys2Proof/Machine/Flags.lean ====
section
/-! DEFINITION. The status register (10_state.md R29): a view of INIT_F, EXH, OFS and the configuration. The
engine has no other flag (R32). -/

namespace Sys2Proof.Machine

/-- A flag as bit 0 of a word. -/
def flagBit (b : Bool) : Word := if b then 1 else 0

/-- `STATUS = zext_32(INIT_F) | (EXH << 1) | (OFS << 2) | (RCFG << 8) | (NMODE << 10)` (10_state.md R29). -/
def statusWord (s : State) : Word :=
  flagBit s.initF ||| flagBit s.exh <<< 1 ||| s.ofs.setWidth 32 <<< 2 |||
    s.cfg.rounds.rcfg.setWidth 32 <<< 8 ||| s.cfg.nonceMode.nmode.setWidth 32 <<< 10

end Sys2Proof.Machine
end

