-- ==== Sys2Proof/Machine/Stream.lean ====
section
/-! DEFINITION. The stream commands SEEK, KSBLK_IDX, KSBLK, COMBINE and STATUS (44_cmd_stream.md). -/

namespace Sys2Proof.Machine

/-- SEEK (44_cmd_stream.md R111 to R114). -/
def execSeek (idx : BitVec 64) (s : State) : Host.Outcome State Fault Refusal :=
  whenInitialized s <|
    if idx.toNat > s.cfg.nonceMode.maxIdx then .next (fail .counterOverflow s)
    else .next (respond .ok [] { setCtr idx.toNat s with ofs := 0, exh := false })

/-- KSBLK_IDX (44_cmd_stream.md R115 to R117): a pure read of block `idx`. -/
def execKsblkIdx (idx : BitVec 64) (s : State) : Host.Outcome State Fault Refusal :=
  whenInitialized s <|
    if idx.toNat > s.cfg.nonceMode.maxIdx then .next (fail .counterOverflow s)
    else .next (respond .ok (ks (withCtr s.cfg.nonceMode s.S idx.toNat) s.cfg.rounds) s)

/-- KSBLK (44_cmd_stream.md R119 to R121): a pure read of the block at the current counter, whatever OFS is. -/
def execKsblk (s : State) : Host.Outcome State Fault Refusal :=
  whenInitialized s <|
    if s.exh then .next (fail .counterOverflow s)
    else .next (respond .ok (ks s.S s.cfg.rounds) s)

/-- COMBINE (44_cmd_stream.md R123 to R128). DIR "is accepted with either value, is not stored, and does not change
the result" (R126). The range check covers the whole request before any byte is combined (R124). -/
def execCombine (_dir : Dir) (data : List Byte) (s : State) : Host.Outcome State Fault Refusal :=
  whenInitialized s <|
    if s.pos + data.length > s.cfg.nonceMode.limit then .next (fail .counterOverflow s)
    else .next (respond .ok (combineBytes s.cfg s.S s.pos data) (setPos (s.pos + data.length) s))

/-- STATUS (44_cmd_stream.md R129, R130): legal in every state, no side effect. -/
def execStatus (s : State) : Host.Outcome State Fault Refusal :=
  .next (respond .ok (leBytes (statusWord s)) s)

end Sys2Proof.Machine
end

