-- ==== Sys2Proof/Machine/Dispatch.lean ====
section
/-! DEFINITION. The dispatch: one arm per constructor of `Instr`, each one call of its meaning. -/

namespace Sys2Proof.Machine

def exec (i : Instr) (s : State) : Host.Outcome State Fault Refusal :=
  match i with
  | .init key nonce => Sys2Proof.Machine.execInit key nonce s
  | .resync nonce => Sys2Proof.Machine.execResync nonce s
  | .seek idx => Sys2Proof.Machine.execSeek idx s
  | .ksblk => Sys2Proof.Machine.execKsblk s
  | .ksblkIdx idx => Sys2Proof.Machine.execKsblkIdx idx s
  | .combine dir data => Sys2Proof.Machine.execCombine dir data s
  | .status => Sys2Proof.Machine.execStatus s

end Sys2Proof.Machine
end

