-- ==== Sys2Proof/Machine/Step.lean ====
section
/-! DEFINITION. One step: the engine accepts the next event of its command port and carries it out whole
(00_scope.md R10; 20_memory.md R39, R42). -/

namespace Sys2Proof.Machine

/-- One step of the engine. Nothing presented: idle (60_exceptions.md R149). A reset: 70_reset_and_hazards.md R151;
a command it interrupts has no response and no effect. A command: stage 1 of 43_cmd_setup.md R99 decodes it, and
the rest is its meaning. -/
def step (s : State) : Host.Outcome State Fault Refusal :=
  match s.inputs with
  | [] => .next (idle s)
  | .reset _ :: rest => .next (hardwareReset { s with inputs := rest })
  | .command c :: rest =>
    match decode c with
    | .ok i => exec i { s with inputs := rest }
    | .error r => rejectCommand r { s with inputs := rest }

/-- `s` with the instruction of a table word presented as the next event of the command port: the engine has no
program counter and no instruction memory (10_state.md R24; 20_memory.md R44), so this is where `step` takes its next
instruction from (notes/assumptions/10.md). -/
def State.withFetchWord (s : State) (nbits w : Nat) : State :=
  { s with inputs := .command (tableCommand nbits w) :: s.inputs }

end Sys2Proof.Machine
end

