-- ==== Sys2Proof/Machine/Assembler.lean ====
section
/-! DEFINITION. The assembler of 30_encoding.md R56: pseudo-instructions and their expansions, and the text syntax
of commands. It stands outside the engine: it makes the commands a host sends. -/

namespace Sys2Proof.Machine

/-! ### Pseudo-instructions -/

/-- Data cut into pieces of 65535 bytes in order, then the remainder; data that fit one command are one piece
(30_encoding.md R56). Data of exactly a multiple of 65535 bytes have no remainder, and no empty COMBINE is sent for one
(DESIGN CHOICE: R56 does not say; notes/assumptions/16.md). `fuel` bounds the number of cuts. -/
def cutPieces : Nat → List Byte → List (List Byte)
  | 0, data => [data]
  | fuel + 1, data =>
    if data.length ≤ maxCombine then [data]
    else data.take maxCombine :: cutPieces fuel (data.drop maxCombine)

/-- The expansions of 30_encoding.md R56. -/
def expandPseudo : Pseudo → List Instr
  | .encrypt data => [.combine .encrypt data]
  | .decrypt data => [.combine .decrypt data]
  | .keystream n => [.combine .encrypt (List.replicate n 0)]
  | .rewind => [.seek 0]
  | .combineLong dir data => (cutPieces data.length data).map (.combine dir)

/-! ### Text: numbers and byte lists -/

/-- A hexadecimal digit, of either case. -/
def hexDigit (c : Char) : Option Nat :=
  let n := c.toNat
  if 48 ≤ n ∧ n ≤ 57 then some (n - 48)
  else if 65 ≤ n ∧ n ≤ 70 then some (n - 55)
  else if 97 ≤ n ∧ n ≤ 102 then some (n - 87)
  else none

/-- Digits of a base, most significant first; `none` for a character that is no digit of the base. -/
def digitsVal (base : Nat) : Nat → List Char → Option Nat
  | acc, [] => some acc
  | acc, c :: cs =>
    match hexDigit c with
    | some d => if d < base then digitsVal base (base * acc + d) cs else none
    | none => none

/-- The characters other than spaces. -/
def dropSpaces (cs : List Char) : List Char := cs.filter (· ≠ ' ')

/-- "a decimal or 0x-prefixed natural number" (30_encoding.md R56). R56 says so of an index; the <n> of KEYSTREAM and the
word of .word take the same two forms (DESIGN CHOICE, notes/assumptions/16.md). -/
def parseNumber (cs : List Char) : Option Nat :=
  match dropSpaces cs with
  | [] => none
  | ['0', 'x'] => none
  | '0' :: 'x' :: ds => digitsVal 16 0 ds
  | ds => digitsVal 10 0 ds

/-- Pairs of hexadecimal digits, first byte first. -/
def hexPairs : List Char → Option (List Byte)
  | [] => some []
  | [_] => none
  | a :: b :: rest =>
    match hexDigit a, hexDigit b, hexPairs rest with
    | some x, some y, some bs => some (BitVec.ofNat 8 (16 * x + y) :: bs)
    | _, _, _ => none

/-- "Hex strings are byte lists, first byte first" (30_encoding.md R56); spaces are skipped
(notes/assumptions/16.md). -/
def parseHex (cs : List Char) : Option (List Byte) := hexPairs (dropSpaces cs)

/-! ### Text: lines -/

/-- The operand texts of a line, cut at commas. -/
def splitOperands : List Char → List (List Char)
  | [] => [[]]
  | c :: cs =>
    match splitOperands cs with
    | [] => [[c]]
    | p :: ps => if c = ',' then [] :: p :: ps else (c :: p) :: ps

/-- The commands of instructions, if each is well formed. -/
def emit (is : List Instr) : Option (List Command) :=
  if is.all Instr.wf then some (is.map encode) else none

/-- A block index operand: 64 bits (30_encoding.md R51). -/
def parseIndex (cs : List Char) : Option (BitVec 64) :=
  match parseNumber cs with
  | some n => if n < 2 ^ 64 then some (BitVec.ofNat 64 n) else none
  | none => none

/-- A COMBINE of either direction; longer data are cut as R56 says. -/
def emitCombine (dir : Dir) (ops : List Char) : Option (List Command) :=
  match parseHex ops with
  | some data => emit (expandPseudo (.combineLong dir data))
  | none => none

/-- A line whose operand text must be empty. -/
def emitBare (ops : List Char) (is : List Instr) : Option (List Command) :=
  if dropSpaces ops = [] then emit is else none

/-- One line of the syntax table of 30_encoding.md R56, or `none` if it is not in the syntax. -/
def assemble (line : List Char) : Option (List Command) :=
  let text := line.dropWhile (· = ' ')
  let word := text.takeWhile (· ≠ ' ')
  let ops := text.dropWhile (· ≠ ' ')
  if word = ['I', 'N', 'I', 'T'] then
    match splitOperands ops with
    | [k, n] =>
      match parseHex k, parseHex n with
      | some key, some nonce => emit [.init key nonce]
      | _, _ => none
    | _ => none
  else if word = ['R', 'E', 'S', 'Y', 'N', 'C'] then
    match parseHex ops with
    | some nonce => emit [.resync nonce]
    | none => none
  else if word = ['S', 'E', 'E', 'K'] then
    match parseIndex ops with
    | some idx => emit [.seek idx]
    | none => none
  else if word = ['K', 'S', 'B', 'L', 'K'] then emitBare ops [.ksblk]
  else if word = ['K', 'S', 'B', 'L', 'K', '_', 'I', 'D', 'X'] then
    match parseIndex ops with
    | some idx => emit [.ksblkIdx idx]
    | none => none
  else if word = ['C', 'O', 'M', 'B', 'I', 'N', 'E'] then emitCombine .encrypt ops
  else if word = ['C', 'O', 'M', 'B', 'I', 'N', 'E', '.', 'E'] then emitCombine .encrypt ops
  else if word = ['C', 'O', 'M', 'B', 'I', 'N', 'E', '.', 'D'] then emitCombine .decrypt ops
  else if word = ['S', 'T', 'A', 'T', 'U', 'S'] then emitBare ops [.status]
  else if word = ['E', 'N', 'C', 'R', 'Y', 'P', 'T'] then
    match parseHex ops with
    | some data => emit (expandPseudo (.combineLong .encrypt data))
    | none => none
  else if word = ['D', 'E', 'C', 'R', 'Y', 'P', 'T'] then
    match parseHex ops with
    | some data => emit (expandPseudo (.combineLong .decrypt data))
    | none => none
  else if word = ['K', 'E', 'Y', 'S', 'T', 'R', 'E', 'A', 'M'] then
    match parseNumber ops with
    | some n => emit (expandPseudo (.keystream n))
    | none => none
  else if word = ['R', 'E', 'W', 'I', 'N', 'D'] then emitBare ops (expandPseudo .rewind)
  else if word = ['.', 'w', 'o', 'r', 'd'] then
    match splitOperands ops with
    | [w] =>
      match parseNumber w with
      | some n => if n < 2 ^ 32 then some [⟨BitVec.ofNat 32 n, []⟩] else none
      | none => none
    | [w, p] =>
      match parseNumber w, parseHex p with
      | some n, some payload => if n < 2 ^ 32 then some [⟨BitVec.ofNat 32 n, payload⟩] else none
      | _, _ => none
    | _ => none
  else none

end Sys2Proof.Machine
end

