-- ==== Sys2Proof/Safety.lean ====
section
/-! DEFINITION. What statements about the engine are made of: the invariant of its state (10_state.md R23, R26),
the host's framing duty (60_exceptions.md R150, H-4), the order in which commands run (70_reset_and_hazards.md
R162), and the spec's own formulas, written from the rules apart from the meanings. -/

namespace Sys2Proof.Machine

/-! ### The invariant -/

/-- "While EXH = 1, Ctr(S) = MAXIDX and OFS = 0" (10_state.md R26). -/
def ExhaustedAtEnd (s : State) : Prop :=
  s.exh = true → s.ctr = s.cfg.nonceMode.maxIdx ∧ s.ofs = 0

/-- "While INIT_F = 1, S[0..3] equal the constants" (10_state.md R23). -/
def ConstantsInPlace (s : State) : Prop :=
  s.initF = true →
    s.S[0] = 0x61707865 ∧ s.S[1] = 0x3320646E ∧ s.S[2] = 0x79622D32 ∧ s.S[3] = 0x6B206574

/-- Before the first INIT the cursor's own fields still hold their reset values (DEDUCED from R33 and R99;
notes/assumptions/17.md). -/
def FreshBeforeInit (s : State) : Prop :=
  s.initF = false → s.exh = false ∧ s.ofs = 0

/-- The invariant of the engine. -/
def Inv (s : State) : Prop := ExhaustedAtEnd s ∧ ConstantsInPlace s ∧ FreshBeforeInit s

/-! ### Host events and runs -/

/-- Duty H-4: "send exactly PLEN(CW) payload bytes after CW" (60_exceptions.md R150), for one event. -/
def HostEvent.keepsDuty : HostEvent → Bool
  | .command c => c.payload.length == plen c.cw
  | .reset _ => true

/-- Is the event a command? -/
def HostEvent.isCommand : HostEvent → Bool
  | .command _ => true
  | .reset _ => false

/-- `n` steps, stopping at the first fault or refusal: the host interface's run, with the types written out
(Laws/Exec.lean, `run_eq_runSteps`). -/
def runSteps : Nat → State → Host.Outcome State Fault Refusal
  | 0, s => .next s
  | n + 1, s =>
    match step s with
    | .next t => runSteps n t
    | .fault r => .fault r
    | .refused r => .refused r

/-- Commands run one after another: each "sees the state every earlier command left" (20_memory.md R42). -/
def execAll : List Instr → State → Host.Outcome State Fault Refusal
  | [], s => .next s
  | i :: is, s =>
    match exec i s with
    | .next t => execAll is t
    | .fault r => .fault r
    | .refused r => .refused r

/-! ### The spec's formulas -/

/-- The illegal words, case by case (30_encoding.md R55): OPC = 0x00; OPC in 0x08 to 0xFF; an RSV bit set, "15:8 for
INIT, 23:8 for RESYNC, 31:8 for SEEK, KSBLK, KSBLK_IDX and STATUS, and 15:9 for COMBINE". -/
def illegalWord (cw : Word) : Bool :=
  let opc := cw.extractLsb' 0 8
  opc == 0x00 || decide (0x08 ≤ opc) ||
    (opc == 0x01 && cw.extractLsb' 8 8 != 0) ||
    (opc == 0x02 && cw.extractLsb' 8 16 != 0) ||
    ((opc == 0x03 || opc == 0x04 || opc == 0x05 || opc == 0x07) && cw.extractLsb' 8 24 != 0) ||
    (opc == 0x06 && cw.extractLsb' 9 7 != 0)

/-- `le_word` of bytes 4i .. 4i+3 of a list (42_le_packer.md R91, R92). -/
def wordAt (bs : List Byte) (i : Nat) : Word :=
  leWord (bs.getD (4 * i) 0) (bs.getD (4 * i + 1) 0) (bs.getD (4 * i + 2) 0) (bs.getD (4 * i + 3) 0)

/-- The input state for block `idx` of the stream of (key, nonce) (41_block_function.md R80). -/
def inputState (m : NonceMode) (key nonce : List Byte) (idx : Nat) : Words :=
  match m with
  | .n64 =>
    #v[0x61707865, 0x3320646E, 0x79622D32, 0x6B206574,
       wordAt key 0, wordAt key 1, wordAt key 2, wordAt key 3, wordAt key 4, wordAt key 5, wordAt key 6, wordAt key 7,
       BitVec.ofNat 32 idx, BitVec.ofNat 32 (idx / 2 ^ 32), wordAt nonce 0, wordAt nonce 1]
  | .n96 =>
    #v[0x61707865, 0x3320646E, 0x79622D32, 0x6B206574,
       wordAt key 0, wordAt key 1, wordAt key 2, wordAt key 3, wordAt key 4, wordAt key 5, wordAt key 6, wordAt key 7,
       BitVec.ofNat 32 idx, wordAt nonce 0, wordAt nonce 1, wordAt nonce 2]

/-- The words of S after a successful RESYNC: constants and key as they were, counter 0, the new nonce's words
(43_cmd_setup.md R106). -/
def resyncedWords (m : NonceMode) (S : Words) (nonce : List Byte) : Words :=
  match m with
  | .n64 =>
    #v[S[0], S[1], S[2], S[3], S[4], S[5], S[6], S[7], S[8], S[9], S[10], S[11],
       0, 0, wordAt nonce 0, wordAt nonce 1]
  | .n96 =>
    #v[S[0], S[1], S[2], S[3], S[4], S[5], S[6], S[7], S[8], S[9], S[10], S[11],
       0, wordAt nonce 0, wordAt nonce 1, wordAt nonce 2]

/-- Which words of S hold the block counter (10_state.md R20). -/
def counterWord (m : NonceMode) (i : Nat) : Bool :=
  match m with
  | .n64 => i == 12 || i == 13
  | .n96 => i == 12

/-- Two 16-word values with the same words but for the counter words. -/
def SameOffCounter (m : NonceMode) (S T : Words) : Prop :=
  ∀ (i : Nat) (h : i < 16), counterWord m i = false → S[i] = T[i]

/-- The data bytes of a COMBINE at position `p`, `out[k] = data[k] ^ KSByte(p + k)` (44_cmd_stream.md R123, by the
rule's own formula). -/
def combineOutput (cfg : Config) (S : Words) (p : Nat) (data : List Byte) : List Byte :=
  data.mapIdx fun k d => d ^^^ ksByte cfg S (p + k)

/-- How many of the `n` keystream bytes from position `p` on are the last byte (offset 63) of their block
(44_cmd_stream.md R125). -/
def lastBytesConsumed (p n : Nat) : Nat := ((List.range n).filter fun k => (p + k) % 64 == 63).length

/-- The quarter-rounds of R rounds, in order (41_block_function.md R66 to R69). -/
def schedule (r : Rounds) : List Quad := (List.replicate (r.count / 2) (columnQuads ++ diagonalQuads)).flatten

end Sys2Proof.Machine
end

