-- ==== Sys2Proof/Certificates/Slice0/Obligations.lean ====
section
/-! DEFINITION. The statements for the provers. Each docstring names the rule of spec/ it formalises; "log <n>" is
notes/assumptions/<n>.md. Responses are written out as header word and data, from 30_encoding.md R54. -/

open Sys2Proof Sys2Proof.Machine

/-! ### Encoding and framing -/

/-- Decoding an encoded well-formed instruction gives it back, every operand at every value (30_encoding.md R47 to
R52, R56). -/
def Obligations.DecodeInvertsEncode : Prop :=
  ∀ i : Instr, i.wf = true → decode (encode i) = .ok i

/-- A command that decodes has one encoding: the decoder reads every bit of word and payload, and what it gives is
well formed (30_encoding.md R47 to R55). -/
def Obligations.EncodeInvertsDecode : Prop :=
  ∀ (c : Command) (i : Instr), decode c = .ok i → i.wf = true ∧ encode i = c

/-- The opcode map (R48): a word selects a row exactly when (CW & mask) = match, so at most one row matches, and a
word that matches none decodes to no instruction. -/
def Obligations.WordSelectsRowByMask : Prop :=
  ∀ cw : Word,
    (selectRow cw = some .INIT ↔ cw &&& 0x0000FFFF = 0x00000001) ∧
    (selectRow cw = some .RESYNC ↔ cw &&& 0x00FFFFFF = 0x00000002) ∧
    (selectRow cw = some .SEEK ↔ cw &&& 0xFFFFFFFF = 0x00000003) ∧
    (selectRow cw = some .KSBLK ↔ cw &&& 0xFFFFFFFF = 0x00000004) ∧
    (selectRow cw = some .KSBLK_IDX ↔ cw &&& 0xFFFFFFFF = 0x00000005) ∧
    (selectRow cw = some .COMBINE ↔ cw &&& 0x0000FEFF = 0x00000006) ∧
    (selectRow cw = some .STATUS ↔ cw &&& 0xFFFFFFFF = 0x00000007) ∧
    (selectRow cw = none → ∀ (payload : List Byte) (i : Instr), decode ⟨cw, payload⟩ ≠ .ok i)

/-- PLEN(CW) (R53): from OPC and the length fields alone, whatever the other bits are. -/
def Obligations.PayloadLengthReadsOpcAndLengthFields : Prop :=
  (∀ nlen klen rsv : BitVec 8, plen (nlen ++ klen ++ rsv ++ 0x01#8) = klen.toNat + nlen.toNat) ∧
  (∀ (nlen : BitVec 8) (rsv : BitVec 16), plen (nlen ++ rsv ++ 0x02#8) = nlen.toNat) ∧
  (∀ rsv : BitVec 24, plen (rsv ++ 0x03#8) = 8) ∧
  (∀ rsv : BitVec 24, plen (rsv ++ 0x05#8) = 8) ∧
  (∀ (len : BitVec 16) (x : BitVec 8), plen (len ++ x ++ 0x06#8) = len.toNat) ∧
  (∀ (x : BitVec 24) (opc : BitVec 8),
    opc ≠ 0x01 → opc ≠ 0x02 → opc ≠ 0x03 → opc ≠ 0x05 → opc ≠ 0x06 → plen (x ++ opc) = 0)

/-- A byte transport (20_memory.md R36; 30_encoding.md R46, R53): the first command is read back from its bytes and
the next command starts right after its payload, for legal and illegal words alike. -/
def Obligations.ByteStreamFramesCommands : Prop :=
  ∀ (c : Command) (rest : List Byte), c.payload.length = plen c.cw → frame (c.toBytes ++ rest) = some (c, rest)

/-- R55: a word illegal by the rule's three cases fails with IllegalCommand, its payload consumed and nothing else
changed, and every other word (with its payload) is an instruction. -/
def Obligations.IllegalWordsAnswerIllegalCommand : Prop :=
  ∀ (s : State) (c : Command) (rest : List HostEvent),
    s.inputs = .command c :: rest → c.payload.length = plen c.cw →
      (illegalWord c.cw = true →
        step s = .next { s with inputs := rest, responses := s.responses ++ [⟨0x00000005, []⟩] }) ∧
      (illegalWord c.cw = false → ∃ i, decode c = .ok i)

/-- Words of 95_test_vectors.md section 2.4 and their instructions. -/
def Obligations.SampleWordsDecode : Prop :=
  decode ⟨0x08200001, List.replicate 32 0x11 ++ List.replicate 8 0x22⟩ =
    .ok (.init (List.replicate 32 0x11) (List.replicate 8 0x22)) ∧
  decode ⟨0x0C000002, List.replicate 12 0x33⟩ = .ok (.resync (List.replicate 12 0x33)) ∧
  decode ⟨0x00000003, [0x01, 0, 0, 0, 0, 0, 0, 0]⟩ = .ok (.seek 1) ∧
  decode ⟨0x00000004, []⟩ = .ok .ksblk ∧
  decode ⟨0x00000005, [0, 0, 0, 0, 1, 0, 0, 0]⟩ = .ok (.ksblkIdx 0x100000000) ∧
  decode ⟨0x000A0006, List.replicate 10 0⟩ = .ok (.combine .encrypt (List.replicate 10 0)) ∧
  decode ⟨0x000E0106, List.replicate 14 0⟩ = .ok (.combine .decrypt (List.replicate 14 0)) ∧
  decode ⟨0x00000007, []⟩ = .ok .status ∧
  decode ⟨0x00000000, []⟩ = .error .opcZero ∧
  decode ⟨0x000000FF, []⟩ = .error .unassignedOpc ∧
  decode ⟨0x00010206, [0]⟩ = .error .reservedBit

/-- COMBINE over longer data is cut (R56): consecutive pieces of 65535 bytes, then the remainder, each of them
encodable, together the data. R56 gives the cut for COMBINE.E only; that COMBINE.D is cut alike is the model's choice
(log 16). -/
def Obligations.LongCombineIsCutInOrder : Prop :=
  ∀ (dir : Dir) (data : List Byte), ∃ pieces last,
    expandPseudo (.combineLong dir data) = (pieces ++ [last]).map (.combine dir) ∧
    (pieces ++ [last]).flatten = data ∧ (∀ p ∈ pieces, p.length = 65535) ∧ last.length ≤ 65535 ∧
    ∀ i ∈ expandPseudo (.combineLong dir data), i.wf = true

/-! ### Steps -/

/-- When the next event is a command that decodes to `i`, the step is `exec i` at the state that has accepted the
event (00_scope.md R10; 43_cmd_setup.md R99). -/
def Obligations.StepRunsDecodedCommand : Prop :=
  ∀ (s : State) (c : Command) (rest : List HostEvent) (i : Instr),
    s.inputs = .command c :: rest → decode c = .ok i → step s = exec i { s with inputs := rest }

/-- A step stops exactly when the next event is a command whose payload length is not PLEN(CW), and every other step
answers a next state (30_encoding.md R46; 60_exceptions.md R150, H-4; log 8: that the stop is a fault is the model's
choice). -/
def Obligations.StepFaultsExactlyOnWrongPayloadLength : Prop :=
  ∀ s : State,
    (step s = .fault .payloadLength ↔
      ∃ c rest, s.inputs = .command c :: rest ∧ c.payload.length ≠ plen c.cw) ∧
    ((∃ t, step s = .next t) ∨ step s = .fault .payloadLength)

/-- With nothing presented the engine is idle and keeps its whole state (60_exceptions.md R149; that this is a step is
the model's choice, log 6). -/
def Obligations.IdleStepKeepsState : Prop :=
  ∀ s : State, s.inputs = [] → step s = .next s

/-- Reset (R151): INIT_F, EXH and OFS become 0, a command in progress has no response and no effect, STATUS reads
(RCFG << 8) | (NMODE << 10), and ROUNDS and NONCE_MODE stay. That the ports stay is the model's choice (log 7). So is the
last clause, the same next state whatever command was interrupted: it is DEDUCED (log 11), and as it covers S, which the
spec leaves unspecified, it rests on the model's numbered free words (log 4, log 5). No value of S is stated. -/
def Obligations.ResetClearsFlagsAndAbandonsCommand : Prop :=
  ∀ (s : State) (inProgress : Option Command) (rest : List HostEvent), s.inputs = .reset inProgress :: rest →
    ∃ t, step s = .next t ∧
      t.initF = false ∧ t.exh = false ∧ t.ofs = 0 ∧ t.cfg = s.cfg ∧ t.responses = s.responses ∧ t.inputs = rest ∧
      statusWord t = s.cfg.rounds.rcfg.setWidth 32 <<< 8 ||| s.cfg.nonceMode.nmode.setWidth 32 <<< 10 ∧
      ∀ other : Option Command, step { s with inputs := .reset other :: rest } = .next t

/-- The state after power-on in every configuration (10_state.md R33): flags 0 and the STATUS values that
95_test_vectors.md section 2.6 lists. Nothing is said of S (log 3). -/
def Obligations.PowerOnFlagsAndStatus : Prop :=
  (∀ cfg, (State.powerOn cfg).initF = false ∧ (State.powerOn cfg).exh = false ∧ (State.powerOn cfg).ofs = 0 ∧
    statusWord (State.powerOn cfg) = cfg.rounds.rcfg.setWidth 32 <<< 8 ||| cfg.nonceMode.nmode.setWidth 32 <<< 10) ∧
  statusWord State.reset = 0x00000200 ∧
  statusWord (State.powerOn ⟨.r20, .n96⟩) = 0x00000600 ∧
  statusWord (State.powerOn ⟨.r12, .n96⟩) = 0x00000500 ∧
  statusWord (State.powerOn ⟨.r8, .n96⟩) = 0x00000400 ∧
  statusWord (State.powerOn ⟨.r8, .n64⟩) = 0x00000000

/-- "any other value is refused at construction" (00_scope.md R6). -/
def Obligations.ConstructionAdmitsThreeRoundCounts : Prop :=
  ∀ (n : Nat) (m : NonceMode),
    (Config.construct n m = none ↔ n ≠ 8 ∧ n ≠ 12 ∧ n ≠ 20) ∧
    ∀ cfg, Config.construct n m = some cfg → cfg.rounds.count = n ∧ cfg.nonceMode = m

/-! ### INIT and RESYNC -/

/-- INIT completes (43_cmd_setup.md R101, R105): whatever the state before, all 16 words are those of block 0 of the
new stream (41_block_function.md R80), INIT_F is 1, OFS and EXH are 0, and nothing else changes but the response. The
order of the key's and the nonce's bytes is marked by the spec as its own reading (log 15). -/
def Obligations.InitLoadsKeyAndNonce : Prop :=
  ∀ (key nonce : List Byte) (s : State), key.length = 32 → nonce.length = s.cfg.nonceMode.nonceLen →
    exec (.init key nonce) s =
      .next { s with
        S := inputState s.cfg.nonceMode key nonce 0
        initF := true
        exh := false
        ofs := 0
        responses := s.responses ++ [⟨0x00000000, []⟩] }

/-- INIT's length checks, the key's first, and a failing INIT writes nothing (R102, R103, R104). -/
def Obligations.InitRejectsWrongLengths : Prop :=
  ∀ (key nonce : List Byte) (s : State),
    (key.length ≠ 32 →
      exec (.init key nonce) s = .next { s with responses := s.responses ++ [⟨0x00000001, []⟩] }) ∧
    (key.length = 32 → nonce.length ≠ (match s.cfg.nonceMode with | .n64 => 8 | .n96 => 12) →
      exec (.init key nonce) s = .next { s with responses := s.responses ++ [⟨0x00000002, []⟩] })

/-- RESYNC completes (R106, R108): S[0..11] stay, the counter becomes 0, the nonce words are the new nonce's, OFS and EXH
become 0, and nothing else changes but the response. The order of the nonce's bytes is marked by the spec as its own
reading (log 15). -/
def Obligations.ResyncReplacesNonceAndRestarts : Prop :=
  ∀ (nonce : List Byte) (s : State), s.initF = true → nonce.length = s.cfg.nonceMode.nonceLen →
    exec (.resync nonce) s =
      .next { s with
        S := resyncedWords s.cfg.nonceMode s.S nonce
        exh := false
        ofs := 0
        responses := s.responses ++ [⟨0x00000000, []⟩] }

/-- RESYNC with a nonce of the wrong length (R107); before INIT it fails with NotInitialized whatever the length
(R108). -/
def Obligations.ResyncRejects : Prop :=
  ∀ (nonce : List Byte) (s : State),
    (s.initF = false →
      exec (.resync nonce) s = .next { s with responses := s.responses ++ [⟨0x00000004, []⟩] }) ∧
    (s.initF = true → nonce.length ≠ s.cfg.nonceMode.nonceLen →
      exec (.resync nonce) s = .next { s with responses := s.responses ++ [⟨0x00000002, []⟩] })

/-- Resync independence (R110): after any commands under a first nonce (no further INIT succeeding), RESYNC leaves the
cipher state of a fresh engine after INIT with the second nonce, and every later run of commands gives the same
responses as on that fresh engine. -/
def Obligations.ResyncEqualsFreshInit : Prop :=
  ∀ (s : State) (key n1 n2 : List Byte) (cs : List Instr),
    key.length = 32 → n1.length = s.cfg.nonceMode.nonceLen → n2.length = s.cfg.nonceMode.nonceLen →
    (∀ k n, .init k n ∈ cs → k.length ≠ 32 ∨ n.length ≠ s.cfg.nonceMode.nonceLen) →
    ∃ t u, execAll (.init key n1 :: cs ++ [.resync n2]) s = .next t ∧
      execAll [.init key n2] (State.powerOn s.cfg) = .next u ∧
      t.S = u.S ∧ t.initF = u.initF ∧ t.exh = u.exh ∧ t.ofs = u.ofs ∧
      ∀ more : List Instr, ∃ t' u' rs, execAll more t = .next t' ∧ execAll more u = .next u' ∧
        t'.responses = t.responses ++ rs ∧ u'.responses = u.responses ++ rs

/-- Idempotency (20_memory.md R40): every command but COMBINE, repeated, leaves the state it left. -/
def Obligations.RepeatedCommandLeavesSameState : Prop :=
  ∀ (i : Instr) (s t u : State), (∀ dir data, i ≠ .combine dir data) →
    exec i s = .next t → exec i t = .next u → u = { t with responses := u.responses }

/-! ### SEEK, KSBLK_IDX, KSBLK -/

/-- SEEK completes (44_cmd_stream.md R111, R113, R114): the counter words hold the index, OFS and EXH are 0, nothing else
changes but the response, and the cursor stands at byte 0 of that block. -/
def Obligations.SeekSetsCounter : Prop :=
  ∀ (idx : BitVec 64) (s : State), s.initF = true → idx.toNat ≤ s.cfg.nonceMode.maxIdx →
    ∃ t, exec (.seek idx) s = .next t ∧
      t = { s with
        S := match s.cfg.nonceMode with
          | .n64 => (s.S.set 12 (idx.extractLsb' 0 32)).set 13 (idx.extractLsb' 32 32)
          | .n96 => s.S.set 12 (idx.extractLsb' 0 32)
        exh := false
        ofs := 0
        responses := s.responses ++ [⟨0x00000000, []⟩] } ∧
      t.ctr = idx.toNat ∧ t.pos = idx.toNat * 64

/-- SEEK's range (R112): under N96 an index of 2^32 or more fails with CounterOverflow and changes nothing; under N64 no
index does. -/
def Obligations.SeekRange : Prop :=
  ∀ (idx : BitVec 64) (s : State), s.initF = true →
    (s.cfg.nonceMode = .n96 → 2 ^ 32 ≤ idx.toNat →
      exec (.seek idx) s = .next { s with responses := s.responses ++ [⟨0x00000003, []⟩] }) ∧
    (s.cfg.nonceMode = .n96 → idx.toNat < 2 ^ 32 →
      ∃ t, exec (.seek idx) s = .next t ∧ t.responses = s.responses ++ [⟨0x00000000, []⟩] ∧ t.ctr = idx.toNat) ∧
    (s.cfg.nonceMode = .n64 →
      ∃ t, exec (.seek idx) s = .next t ∧ t.responses = s.responses ++ [⟨0x00000000, []⟩] ∧ t.ctr = idx.toNat)

/-- KSBLK_IDX completes (R115, R117): 64 bytes of block `idx`, and no state written. -/
def Obligations.KsblkIdxReturnsBlock : Prop :=
  ∀ (idx : BitVec 64) (s : State), s.initF = true → idx.toNat ≤ s.cfg.nonceMode.maxIdx →
    ∃ data, data.length = 64 ∧
      exec (.ksblkIdx idx) s = .next { s with responses := s.responses ++ [⟨0x00400000, data⟩] } ∧
      ∀ k < 64, data[k]? = some (ksByte s.cfg s.S (idx.toNat * 64 + k))

/-- KSBLK_IDX's range (R116): under N96 an index of 2^32 or more fails with CounterOverflow and changes nothing; no
other index does, and no index does under N64. -/
def Obligations.KsblkIdxRejectsBeyondMaxIdx : Prop :=
  ∀ (idx : BitVec 64) (s : State), s.initF = true →
    (s.cfg.nonceMode = .n96 ∧ 2 ^ 32 ≤ idx.toNat →
      exec (.ksblkIdx idx) s = .next { s with responses := s.responses ++ [⟨0x00000003, []⟩] }) ∧
    (s.cfg.nonceMode = .n64 ∨ idx.toNat < 2 ^ 32 →
      ∃ data, exec (.ksblkIdx idx) s = .next { s with responses := s.responses ++ [⟨0x00400000, data⟩] })

/-- KSByte depends only on the constants, key words and nonce words of S, on the position and on the configuration
(41_block_function.md R76), and so does KSBLK_IDX's answer: never on the counter words, OFS or EXH (44_cmd_stream.md
R117). -/
def Obligations.KeystreamIgnoresCursor : Prop :=
  (∀ (cfg : Config) (S T : Words) (p : Nat), SameOffCounter cfg.nonceMode S T → ksByte cfg S p = ksByte cfg T p) ∧
  ∀ (s t : State) (idx : BitVec 64), s.cfg = t.cfg → s.initF = t.initF → SameOffCounter s.cfg.nonceMode s.S t.S →
    ∃ r, exec (.ksblkIdx idx) s = .next { s with responses := s.responses ++ [r] } ∧
      exec (.ksblkIdx idx) t = .next { t with responses := t.responses ++ [r] }

/-- KSBLK completes (R119, R121): the whole block at the current counter, whatever OFS is, and no state written. -/
def Obligations.KsblkReturnsCurrentBlock : Prop :=
  ∀ s : State, s.initF = true → s.exh = false →
    ∃ data, data.length = 64 ∧
      exec .ksblk s = .next { s with responses := s.responses ++ [⟨0x00400000, data⟩] } ∧
      data = ks s.S s.cfg.rounds ∧ ∀ k < 64, data[k]? = some (ksByte s.cfg s.S (s.ctr * 64 + k))

/-- KSBLK past the last block (R120). -/
def Obligations.KsblkRejectsWhenExhausted : Prop :=
  ∀ s : State, s.initF = true → s.exh = true →
    exec .ksblk s = .next { s with responses := s.responses ++ [⟨0x00000003, []⟩] }

/-! ### COMBINE -/

/-- COMBINE completes (R123): byte k of the answer is data[k] ^ KSByte(p + k), the cursor moves past the data, and
nothing but the counter words, OFS, EXH and the response changes. -/
def Obligations.CombineXorsKeystream : Prop :=
  ∀ (dir : Dir) (data : List Byte) (s : State),
    s.initF = true → s.pos + data.length ≤ s.cfg.nonceMode.limit → data.length < 65536 →
    ∃ t, exec (.combine dir data) s = .next t ∧
      t.responses =
        s.responses ++ [⟨BitVec.ofNat 32 (data.length * 65536), combineOutput s.cfg s.S s.pos data⟩] ∧
      t.pos = s.pos + data.length ∧ ExhaustedAtEnd t ∧
      SameOffCounter s.cfg.nonceMode s.S t.S ∧
      t = { s with S := t.S, exh := t.exh, ofs := t.ofs, responses := t.responses }

/-- COMBINE's range check is all or nothing (R124), with LIMIT = 2^70 under N64 and 2^38 under N96. -/
def Obligations.CombineRejectsPastLimit : Prop :=
  ∀ (dir : Dir) (data : List Byte) (s : State), s.initF = true →
    s.pos + data.length > (match s.cfg.nonceMode with | .n64 => 2 ^ 70 | .n96 => 2 ^ 38) →
    exec (.combine dir data) s = .next { s with responses := s.responses ++ [⟨0x00000003, []⟩] }

/-- Cursor and counter advance (R125): the counter and OFS are the new position's quotient and remainder by 64, the
counter goes up once for each block whose last byte was consumed, and at LIMIT EXH is 1 instead. Under N64 the counter
is one 64-bit number with its carry into S[13]. -/
def Obligations.CombineAdvancesCounter : Prop :=
  ∀ (dir : Dir) (data : List Byte) (s : State),
    s.initF = true → s.pos + data.length ≤ s.cfg.nonceMode.limit →
    ∃ t, exec (.combine dir data) s = .next t ∧
      (s.pos + data.length < s.cfg.nonceMode.limit →
        t.exh = false ∧ t.ctr = (s.pos + data.length) / 64 ∧ t.ofs.toNat = (s.pos + data.length) % 64 ∧
        t.ctr = s.ctr + lastBytesConsumed s.pos data.length ∧
        (s.cfg.nonceMode = .n64 →
          t.S[12].toNat = (s.pos + data.length) / 64 % 2 ^ 32 ∧
          t.S[13].toNat = (s.pos + data.length) / 64 / 2 ^ 32)) ∧
      (s.pos + data.length = s.cfg.nonceMode.limit →
        t.exh = true ∧ t.ctr = s.cfg.nonceMode.maxIdx ∧ t.ofs = 0)

/-- COMBINE of no data (R128): OK and no state change, even at EXH = 1, but NotInitialized before INIT. The premise rules
out states no run reaches (10_state.md R26; StepKeepsInvariant). -/
def Obligations.CombineOfNothing : Prop :=
  ∀ (dir : Dir) (s : State), ExhaustedAtEnd s →
    (s.initF = true →
      exec (.combine dir []) s = .next { s with responses := s.responses ++ [⟨0x00000000, []⟩] }) ∧
    (s.initF = false →
      exec (.combine dir []) s = .next { s with responses := s.responses ++ [⟨0x00000004, []⟩] })

/-- Encrypt and decrypt are one operation (R126): DIR changes nothing, and COMBINE, SEEK back to the block, COMBINE
forward to the position, COMBINE over the output returns the data. At EXH = 1 the position LIMIT has no block to seek to,
so that part asks for EXH = 0. -/
def Obligations.CombineIsItsOwnInverse : Prop :=
  (∀ (data : List Byte) (s : State), exec (.combine .encrypt data) s = exec (.combine .decrypt data) s) ∧
  ∀ (d1 d2 d3 : Dir) (data skip : List Byte) (s : State),
    s.initF = true → s.exh = false → s.pos + data.length ≤ s.cfg.nonceMode.limit → data.length < 65536 →
    skip.length = s.pos % 64 →
    ∃ t out u w, exec (.combine d1 data) s = .next t ∧
      t.responses = s.responses ++ [⟨BitVec.ofNat 32 (data.length * 65536), out⟩] ∧
      execAll [.seek (BitVec.ofNat 64 (s.pos / 64)), .combine d2 skip] t = .next u ∧
      u.pos = s.pos ∧
      exec (.combine d3 out) u = .next w ∧
      w.responses = u.responses ++ [⟨BitVec.ofNat 32 (data.length * 65536), data⟩]

/-- Chunking independence (R127). Within LIMIT every piece succeeds, the answers put together are the data XOR the
keystream, the run ends where one COMBINE over all the data ends, and that one COMBINE answers the same bytes. Past LIMIT
the one COMBINE fails and changes nothing, and the run succeeds up to the first piece whose end passes LIMIT, which fails
and leaves the position where the piece before it ended. The premise on EXH rules out states no run reaches (10_state.md
R26). -/
def Obligations.ChunkingIndependence : Prop :=
  ∀ (dir : Dir) (pieces : List (List Byte)) (s : State),
    s.initF = true → ExhaustedAtEnd s → (∀ d ∈ pieces, d.length < 65536) →
    (s.pos + pieces.flatten.length ≤ s.cfg.nonceMode.limit →
      ∃ (t : State) (outs : List (List Byte)),
        execAll (pieces.map (.combine dir)) s =
          .next { t with responses :=
            s.responses ++ outs.map fun o => ⟨BitVec.ofNat 32 (o.length * 65536), o⟩ } ∧
        outs.map List.length = pieces.map List.length ∧
        outs.flatten = combineOutput s.cfg s.S s.pos pieces.flatten ∧
        (pieces.flatten.length < 65536 →
          exec (.combine dir pieces.flatten) s =
            .next { t with responses :=
              s.responses ++ [⟨BitVec.ofNat 32 (pieces.flatten.length * 65536), outs.flatten⟩] })) ∧
    (s.pos + pieces.flatten.length > s.cfg.nonceMode.limit →
      exec (.combine dir pieces.flatten) s = .next { s with responses := s.responses ++ [⟨0x00000003, []⟩] } ∧
      ∃ before bad after t, pieces = before ++ bad :: after ∧
        execAll (before.map (.combine dir)) s = .next t ∧
        t.pos = s.pos + before.flatten.length ∧ t.pos + bad.length > s.cfg.nonceMode.limit ∧
        (∃ outs : List (List Byte),
          t.responses = s.responses ++ outs.map (fun o => ⟨BitVec.ofNat 32 (o.length * 65536), o⟩) ∧
          outs.map List.length = before.map List.length ∧
          outs.flatten = combineOutput s.cfg s.S s.pos before.flatten) ∧
        exec (.combine dir bad) t = .next { t with responses := t.responses ++ [⟨0x00000003, []⟩] })

/-- Seek consistency (R122): SEEK k and KSBLK at any point of the stream (after any commands but a successful INIT or
RESYNC) on the one hand, and INIT, COMBINE over 64 k bytes in any pieces and COMBINE over 64 zero bytes on the other,
return the same 64 bytes, those of block k. The block's input state has constants and byte orders that the spec marks as
general knowledge (log 15). -/
def Obligations.SeekConsistency : Prop :=
  ∀ (s : State) (key nonce : List Byte) (k : BitVec 64) (dir : Dir) (pieces : List (List Byte)) (cs : List Instr),
    key.length = 32 → nonce.length = s.cfg.nonceMode.nonceLen → k.toNat ≤ s.cfg.nonceMode.maxIdx →
    (∀ d ∈ pieces, d.length < 65536) → pieces.flatten.length = 64 * k.toNat →
    (∀ k' n, .init k' n ∈ cs → k'.length ≠ 32 ∨ n.length ≠ s.cfg.nonceMode.nonceLen) →
    (∀ n, .resync n ∈ cs → n.length ≠ s.cfg.nonceMode.nonceLen) →
    ∃ t u ts us,
      execAll (.init key nonce :: cs ++ [.seek k, .ksblk]) s = .next t ∧
      execAll (.init key nonce :: pieces.map (.combine dir) ++ [.combine dir (List.replicate 64 0)]) s = .next u ∧
      t.responses =
        ts ++ [⟨0x00400000, ks (inputState s.cfg.nonceMode key nonce k.toNat) s.cfg.rounds⟩] ∧
      u.responses =
        us ++ [⟨0x00400000, ks (inputState s.cfg.nonceMode key nonce k.toNat) s.cfg.rounds⟩]

/-- KEYSTREAM n (R131; 30_encoding.md R56): COMBINE over zero bytes returns the keystream bytes themselves; at OFS = 0, 64
of them are what KSBLK returns, and the cursor then stands one block further. -/
def Obligations.KeystreamPseudoReturnsKeystream : Prop :=
  ∀ (n : Nat) (s : State), s.initF = true → s.pos + n ≤ s.cfg.nonceMode.limit → n ≤ 65535 →
    ∃ t, execAll (expandPseudo (.keystream n)) s = .next t ∧
      t.responses =
        s.responses ++
          [⟨BitVec.ofNat 32 (n * 65536), (List.range n).map fun k => ksByte s.cfg s.S (s.pos + k)⟩] ∧
      (n = 64 → s.ofs = 0 → s.exh = false →
        exec .ksblk s = .next { s with responses := t.responses } ∧ t.pos = s.pos + 64 ∧
        (s.ctr < s.cfg.nonceMode.maxIdx → t.ctr = s.ctr + 1))

/-! ### STATUS -/

/-- STATUS completes in every state (R129, R130), with the register's four bytes, and no state written. -/
def Obligations.StatusReturnsRegister : Prop :=
  ∀ s : State,
    exec .status s =
      .next { s with responses := s.responses ++
        [⟨0x00040000,
          [(statusWord s).extractLsb' 0 8, (statusWord s).extractLsb' 8 8,
           (statusWord s).extractLsb' 16 8, (statusWord s).extractLsb' 24 8]⟩] }

/-- The fields of STATUS (10_state.md R29). -/
def Obligations.StatusRegisterFields : Prop :=
  ∀ s : State,
    (statusWord s).getLsbD 0 = s.initF ∧
    (statusWord s).getLsbD 1 = s.exh ∧
    (statusWord s).extractLsb' 2 6 = s.ofs ∧
    (statusWord s).extractLsb' 8 2 = (match s.cfg.rounds with | .r8 => 0 | .r12 => 1 | .r20 => 2) ∧
    (statusWord s).getLsbD 10 = (match s.cfg.nonceMode with | .n64 => false | .n96 => true) ∧
    (statusWord s).extractLsb' 11 21 = 0

/-! ### Errors -/

/-- NotInitialized (60_exceptions.md R136): the five commands raise it while INIT_F = 0; INIT and STATUS never do. -/
def Obligations.CommandsBeforeInit : Prop :=
  (∀ (i : Instr) (s : State), s.initF = false → (∀ k n, i ≠ .init k n) → i ≠ .status →
    exec i s = .next { s with responses := s.responses ++ [⟨0x00000004, []⟩] }) ∧
  ∀ (i : Instr) (s : State), ((∃ k n, i = .init k n) ∨ i = .status) →
    ∃ t r, exec i s = .next t ∧ t.responses = s.responses ++ [r] ∧ r.resultField ≠ 0x04

/-- The RESULT of every command the port can carry (R133 to R138): the first error that applies, in the order
IllegalCommand, NotInitialized, InvalidKeyLength, InvalidNonceLength, CounterOverflow, and OK if none does. -/
def Obligations.ResultFollowsPriority : Prop :=
  ∀ (s : State) (c : Command) (rest : List HostEvent),
    s.inputs = .command c :: rest → c.payload.length = plen c.cw →
    let opc := c.cw.extractLsb' 0 8
    ∃ t r, step s = .next t ∧ t.responses = s.responses ++ [r] ∧
      r.resultField =
        if illegalWord c.cw = true then 0x05
        else if (opc = 0x02 ∨ opc = 0x03 ∨ opc = 0x04 ∨ opc = 0x05 ∨ opc = 0x06) ∧ s.initF = false then 0x04
        else if opc = 0x01 ∧ (c.cw.extractLsb' 16 8).toNat ≠ 32 then 0x01
        else if (opc = 0x01 ∨ opc = 0x02) ∧ (c.cw.extractLsb' 24 8).toNat ≠ s.cfg.nonceMode.nonceLen then 0x02
        else if (opc = 0x03 ∨ opc = 0x05) ∧ leNat c.payload > s.cfg.nonceMode.maxIdx ∨
            opc = 0x04 ∧ s.exh = true ∨
            opc = 0x06 ∧ s.pos + (c.cw.extractLsb' 16 16).toNat > s.cfg.nonceMode.limit then 0x03
        else 0x00

/-- An error changes no state (R140): but for the response, which has no data, it is as if the command had not been
sent. -/
def Obligations.ErrorChangesNothing : Prop :=
  ∀ (s t : State) (c : Command) (rest : List HostEvent),
    s.inputs = .command c :: rest → step s = .next t →
    ∃ r, t.responses = s.responses ++ [r] ∧
      (r.resultField ≠ 0x00 →
        r.data = [] ∧ r.dlen = 0 ∧ t = { s with inputs := rest, responses := s.responses ++ [r] })

/-- Every command produces exactly one response with exactly one RESULT (R139), whose header is laid out as R54 says: DLEN
the number of data bytes, bits 15:8 zero, RESULT one of 0x00 to 0x05. -/
def Obligations.OneResponsePerCommand : Prop :=
  ∀ (s : State) (c : Command) (rest : List HostEvent),
    s.inputs = .command c :: rest → c.payload.length = plen c.cw →
    ∃ t r, step s = .next t ∧ t.inputs = rest ∧ t.responses = s.responses ++ [r] ∧
      r.header.extractLsb' 0 8 ≤ 0x05 ∧ r.header.extractLsb' 8 8 = 0 ∧
      (r.header.extractLsb' 16 16).toNat = r.data.length

/-- Errors are not fatal (R141): the same command sent again gives the same error, and an error leaves no mark in
STATUS. -/
def Obligations.RetryGivesSameError : Prop :=
  ∀ (s t : State) (c : Command) (rest : List HostEvent) (r : Response),
    s.inputs = .command c :: .command c :: rest → step s = .next t → t.responses = s.responses ++ [r] →
    r.resultField ≠ 0x00 →
    statusWord t = statusWord s ∧
      ∃ u, step t = .next u ∧ u.responses = s.responses ++ [r, r] ∧ u = { s with inputs := rest, responses := u.responses }

/-! ### The whole machine -/

/-- The invariant holds after power-on, in every configuration (10_state.md R23, R26, R33; log 15, log 17). -/
def Obligations.InvariantHoldsAfterReset : Prop := ∀ cfg, Inv (State.powerOn cfg)

/-- Every step keeps the invariant (10_state.md R23, R26): EXH = 1 only with Ctr = MAXIDX and OFS = 0; the constants in
place while INIT_F = 1; and, before INIT, EXH and OFS 0 (DEDUCED, log 17). The constants themselves are marked by the
spec as general knowledge (log 15). -/
def Obligations.StepKeepsInvariant : Prop := ∀ s t : State, Inv s → step s = .next t → Inv t

/-- Which commands write which words (10_state.md R23, items 1 to 4): a command that changes a constant word has just
initialised the engine or found other constants there, a changed key word means a successful INIT, a changed nonce word a
successful INIT or RESYNC, a changed counter word a successful INIT, RESYNC, SEEK or COMBINE. -/
def Obligations.WordsChangeOnlyInTheirCommands : Prop :=
  ∀ (s t : State) (c : Command) (rest : List HostEvent),
    s.inputs = .command c :: rest → step s = .next t →
    let opc := c.cw.extractLsb' 0 8
    ∃ r, t.responses = s.responses ++ [r] ∧ ∀ (i : Nat) (h : i < 16), t.S[i] ≠ s.S[i] →
      r.resultField = 0x00 ∧
      (i < 4 → opc = 0x01 ∧ (Inv s → s.initF = false)) ∧
      (4 ≤ i → i < 12 → opc = 0x01) ∧
      (12 ≤ i → counterWord s.cfg.nonceMode i = false → opc = 0x01 ∨ opc = 0x02) ∧
      (counterWord s.cfg.nonceMode i = true → opc = 0x01 ∨ opc = 0x02 ∨ opc = 0x03 ∨ opc = 0x06)

/-- ROUNDS and NONCE_MODE: "neither reset nor any command changes them" (70_reset_and_hazards.md R155). -/
def Obligations.ConfigurationNeverChanges : Prop := ∀ s t : State, step s = .next t → t.cfg = s.cfg

/-- INIT_F (10_state.md R28): set by a successful INIT only, cleared by reset only. -/
def Obligations.InitFlagSetByInitClearedByReset : Prop :=
  ∀ s t : State, step s = .next t →
    (s.initF = true → t.initF = false → ∃ x rest, s.inputs = .reset x :: rest) ∧
    (s.initF = false → t.initF = true →
      ∃ c rest, s.inputs = .command c :: rest ∧ c.cw.extractLsb' 0 16 = 0x0001 ∧
        t.responses = s.responses ++ [⟨0x00000000, []⟩])

/-- After exhaustion (10_state.md R26; 44_cmd_stream.md R120, R124): through any commands but SEEK, RESYNC and INIT the
stream stays exhausted, and KSBLK and every COMBINE of some data fail with CounterOverflow. This reads
70_reset_and_hazards.md R158 at EXH = 1: at EXH = 0 a COMBINE that fits still succeeds after a longer one failed
(44_cmd_stream.md R127; 95_test_vectors.md V44-20, V44-21). The premise on EXH rules out states no run reaches. -/
def Obligations.ExhaustedUntilRestarted : Prop :=
  ∀ (s : State) (cs : List Instr), s.initF = true → s.exh = true → ExhaustedAtEnd s →
    (∀ i ∈ cs, (∀ k n, i ≠ .init k n) ∧ (∀ n, i ≠ .resync n) ∧ ∀ idx, i ≠ .seek idx) →
    ∃ t, execAll cs s = .next t ∧ t = { s with responses := t.responses } ∧
      exec .ksblk t = .next { t with responses := t.responses ++ [⟨0x00000003, []⟩] } ∧
      ∀ dir data, data ≠ [] →
        exec (.combine dir data) t = .next { t with responses := t.responses ++ [⟨0x00000003, []⟩] }

/-- The cursor (10_state.md R27): a command other than INIT, RESYNC and SEEK never moves it back, and only a successful
COMBINE moves it forward, by its data's length. -/
def Obligations.OnlyCombineAdvancesCursor : Prop :=
  ∀ (s t : State) (c : Command) (rest : List HostEvent),
    s.inputs = .command c :: rest → step s = .next t →
    c.cw.extractLsb' 0 8 ≠ 0x01 → c.cw.extractLsb' 0 8 ≠ 0x02 → c.cw.extractLsb' 0 8 ≠ 0x03 →
    t.pos = s.pos ∨ (c.cw.extractLsb' 0 8 = 0x06 ∧ t.pos = s.pos + (c.cw.extractLsb' 16 16).toNat)

/-- A host that keeps duty H-4 is served in order (60_exceptions.md R150; 70_reset_and_hazards.md R162; 30_encoding.md
R54): the run never stops, each step consumes one event, and there is one new response for each command, so that after k
steps those of the commands among the first k events have been sent. The two port queues are the model's (log 6, log 7). -/
def Obligations.DutifulHostIsServed : Prop :=
  ∀ s : State, (∀ e ∈ s.inputs, e.keepsDuty = true) →
    ∃ rs : List Response, rs.length = (s.inputs.filter HostEvent.isCommand).length ∧
      ∀ k ≤ s.inputs.length, ∃ t, runSteps k s = .next t ∧ t.inputs = s.inputs.drop k ∧
        t.responses = s.responses ++ rs.take ((s.inputs.take k).filter HostEvent.isCommand).length

/-- The unspecified words are never observed (10_state.md R33; 70_reset_and_hazards.md R152): two engines that differ only
in S, not initialised, give the same responses and the same STATUS through every run, and stop alike; once one is
initialised the two are equal. So the zeros of the reset state (log 3) show nowhere. -/
def Obligations.UnspecifiedWordsNeverObserved : Prop :=
  ∀ (s : State) (W : Words) (n : Nat), s.initF = false →
    match runSteps n s, runSteps n { s with S := W } with
    | .next t, .next u =>
      t.responses = u.responses ∧ statusWord t = statusWord u ∧ (t.initF = true → t = u)
    | .fault a, .fault b => a = b
    | .refused a, .refused b => a = b
    | _, _ => False

/-! ### quarter_round_unit and block_keystream_generator -/

/-- "Bit i of x moves to bit (i + n) mod 32" (40_quarter_round.md R59). -/
def Obligations.RotationMovesEveryBit : Prop :=
  ∀ (x : Word) (n i : Nat), 1 ≤ n → n ≤ 31 → i < 32 → (rotl32 x n).getLsbD ((i + n) % 32) = x.getLsbD i

/-- "QR is a bijection on four-word tuples" (40_quarter_round.md R62). -/
def Obligations.QuarterRoundIsBijective : Prop :=
  Function.Bijective fun x : Word × Word × Word × Word => quarterRound x.1 x.2.1 x.2.2.1 x.2.2.2

/-- The four quarter-rounds of one round touch pairwise disjoint words, and they commute: any order gives the round
(41_block_function.md R74). The index sets are those of R66 and R67, which the spec marks as general knowledge (log 15). -/
def Obligations.QuarterRoundsOfARoundCommute : Prop :=
  (∀ round ∈ [columnQuads, diagonalQuads], round.Pairwise fun p q =>
    ∀ i : Fin 16, ¬(i ∈ [p.i, p.j, p.k, p.l] ∧ i ∈ [q.i, q.j, q.k, q.l])) ∧
  ∀ (x : Words) (qs : List Quad),
    (qs.Perm [⟨0, 4, 8, 12⟩, ⟨1, 5, 9, 13⟩, ⟨2, 6, 10, 14⟩, ⟨3, 7, 11, 15⟩] → qs.foldl applyQR x = columnRound x) ∧
    (qs.Perm [⟨0, 5, 10, 15⟩, ⟨1, 6, 11, 12⟩, ⟨2, 7, 8, 13⟩, ⟨3, 4, 9, 14⟩] → qs.foldl applyQR x = diagonalRound x)

/-- The permutation is its schedule of quarter-rounds: ROUNDS / 2 times the columns then the diagonals, 4 × ROUNDS
quarter-rounds in all (41_block_function.md R66 to R69, R82). -/
def Obligations.PermutationFollowsSchedule : Prop :=
  ∀ (x : Words) (r : Rounds),
    permute x r = (schedule r).foldl applyQR x ∧ (schedule r).length = 4 * r.count

/-- The keystream block (41_block_function.md R70 to R72; 42_le_packer.md R93): 64 bytes, byte 4i + j being byte j of the
sum of word i of the permuted state and word i of the input state. -/
def Obligations.KeystreamBlockBytes : Prop :=
  ∀ (x : Words) (r : Rounds), (ks x r).length = 64 ∧
    ∀ (i j : Nat) (h : i < 16), j < 4 →
      (ks x r)[4 * i + j]? = some (((permute x r)[i] + x[i]).extractLsb' (8 * j) 8)

/-! ### little_endian_state_packer -/

/-- The round trips of 42_le_packer.md R96. -/
def Obligations.PackerRoundTrips : Prop :=
  (∀ b0 b1 b2 b3 : Byte, leBytes (leWord b0 b1 b2 b3) = [b0, b1, b2, b3]) ∧
  (∀ w : Word, leWord (w.extractLsb' 0 8) (w.extractLsb' 8 8) (w.extractLsb' 16 8) (w.extractLsb' 24 8) = w) ∧
  (∀ w : Word, packWords (leBytes w) = [w]) ∧
  Function.Injective serialize

/-- The byte view of a block's input state (42_le_packer.md R97). The constant string's bytes and the order of key and
nonce bytes are marked by the spec as general knowledge (log 15). -/
def Obligations.InputStateByteView : Prop :=
  ∀ (m : NonceMode) (key nonce : List Byte) (idx : Nat),
    key.length = 32 → nonce.length = m.nonceLen → idx ≤ m.maxIdx →
    serialize (inputState m key nonce idx) =
      [0x65, 0x78, 0x70, 0x61, 0x6e, 0x64, 0x20, 0x33, 0x32, 0x2d, 0x62, 0x79, 0x74, 0x65, 0x20, 0x6b] ++ key ++
        (match m with
          | .n64 => leU64Bytes (BitVec.ofNat 64 idx)
          | .n96 => leBytes (BitVec.ofNat 32 idx)) ++ nonce

/-- Byte placement (20_memory.md R37): after INIT, key byte 4i + j stands in bits 8j+7 : 8j of S[4+i], and nonce byte
4i + j in the same bits of S[NBASE+i]. The spec marks this order as its own reading (42_le_packer.md R91, R92; log 15). -/
def Obligations.KeyAndNonceBytePlacement : Prop :=
  ∀ (key nonce : List Byte) (s : State), key.length = 32 → nonce.length = s.cfg.nonceMode.nonceLen →
    ∃ t, exec (.init key nonce) s = .next t ∧
      (∀ (i j : Nat) (h : i < 8), j < 4 → some ((t.S[4 + i]).extractLsb' (8 * j) 8) = key[4 * i + j]?) ∧
      (∀ (i j : Nat) (h : s.cfg.nonceMode.nonceBase + i < 16), j < 4 →
        some ((t.S[s.cfg.nonceMode.nonceBase + i]).extractLsb' (8 * j) 8) = nonce[4 * i + j]?)

/-- `le_u64` (42_le_packer.md R94), and its bytes read back. -/
def Obligations.BlockIndexIsLittleEndian : Prop :=
  (∀ b0 b1 b2 b3 b4 b5 b6 b7 : Byte,
    (leU64 [b0, b1, b2, b3, b4, b5, b6, b7]).toNat =
      b0.toNat + b1.toNat * 2 ^ 8 + b2.toNat * 2 ^ 16 + b3.toNat * 2 ^ 24 + b4.toNat * 2 ^ 32 + b5.toNat * 2 ^ 40 +
        b6.toNat * 2 ^ 48 + b7.toNat * 2 ^ 56) ∧
  ∀ v : BitVec 64, leU64 (leU64Bytes v) = v
end

