-- ==== Sys2Proof/Laws/State.lean ====
section
/-! SUPPORT. One lemma per field per update: what each shared operation leaves in each field of State. -/

namespace Sys2Proof.Machine

@[simp] theorem respond_cfg (r : Result) (data : List Byte) (s : State) : (respond r data s).cfg = s.cfg := rfl
@[simp] theorem respond_S (r : Result) (data : List Byte) (s : State) : (respond r data s).S = s.S := rfl
@[simp] theorem respond_initF (r : Result) (data : List Byte) (s : State) : (respond r data s).initF = s.initF := rfl
@[simp] theorem respond_exh (r : Result) (data : List Byte) (s : State) : (respond r data s).exh = s.exh := rfl
@[simp] theorem respond_ofs (r : Result) (data : List Byte) (s : State) : (respond r data s).ofs = s.ofs := rfl
@[simp] theorem respond_inputs (r : Result) (data : List Byte) (s : State) : (respond r data s).inputs = s.inputs := rfl
@[simp] theorem respond_responses (r : Result) (data : List Byte) (s : State) : (respond r data s).responses = s.responses ++ [mkResponse r data] := rfl
@[simp] theorem respond_free (r : Result) (data : List Byte) (s : State) : (respond r data s).free = s.free := rfl

@[simp] theorem fail_cfg (r : Result) (s : State) : (fail r s).cfg = s.cfg := rfl
@[simp] theorem fail_S (r : Result) (s : State) : (fail r s).S = s.S := rfl
@[simp] theorem fail_initF (r : Result) (s : State) : (fail r s).initF = s.initF := rfl
@[simp] theorem fail_exh (r : Result) (s : State) : (fail r s).exh = s.exh := rfl
@[simp] theorem fail_ofs (r : Result) (s : State) : (fail r s).ofs = s.ofs := rfl
@[simp] theorem fail_inputs (r : Result) (s : State) : (fail r s).inputs = s.inputs := rfl
@[simp] theorem fail_responses (r : Result) (s : State) : (fail r s).responses = s.responses ++ [mkResponse r []] := rfl
@[simp] theorem fail_free (r : Result) (s : State) : (fail r s).free = s.free := rfl

@[simp] theorem setCtr_cfg (idx : Nat) (s : State) : (setCtr idx s).cfg = s.cfg := rfl
@[simp] theorem setCtr_S (idx : Nat) (s : State) : (setCtr idx s).S = withCtr s.cfg.nonceMode s.S idx := rfl
@[simp] theorem setCtr_initF (idx : Nat) (s : State) : (setCtr idx s).initF = s.initF := rfl
@[simp] theorem setCtr_exh (idx : Nat) (s : State) : (setCtr idx s).exh = s.exh := rfl
@[simp] theorem setCtr_ofs (idx : Nat) (s : State) : (setCtr idx s).ofs = s.ofs := rfl
@[simp] theorem setCtr_inputs (idx : Nat) (s : State) : (setCtr idx s).inputs = s.inputs := rfl
@[simp] theorem setCtr_responses (idx : Nat) (s : State) : (setCtr idx s).responses = s.responses := rfl
@[simp] theorem setCtr_free (idx : Nat) (s : State) : (setCtr idx s).free = s.free := rfl

@[simp] theorem resetStream_cfg (s : State) : (resetStream s).cfg = s.cfg := rfl
@[simp] theorem resetStream_S (s : State) : (resetStream s).S = withCtr s.cfg.nonceMode s.S 0 := rfl
@[simp] theorem resetStream_initF (s : State) : (resetStream s).initF = s.initF := rfl
@[simp] theorem resetStream_exh (s : State) : (resetStream s).exh = false := rfl
@[simp] theorem resetStream_ofs (s : State) : (resetStream s).ofs = 0 := rfl
@[simp] theorem resetStream_inputs (s : State) : (resetStream s).inputs = s.inputs := rfl
@[simp] theorem resetStream_responses (s : State) : (resetStream s).responses = s.responses := rfl
@[simp] theorem resetStream_free (s : State) : (resetStream s).free = s.free := rfl

@[simp] theorem loadConstants_cfg (s : State) : (loadConstants s).cfg = s.cfg := rfl
@[simp] theorem loadConstants_S (s : State) : (loadConstants s).S = putWords constWords 0 s.S := rfl
@[simp] theorem loadConstants_initF (s : State) : (loadConstants s).initF = s.initF := rfl
@[simp] theorem loadConstants_exh (s : State) : (loadConstants s).exh = s.exh := rfl
@[simp] theorem loadConstants_ofs (s : State) : (loadConstants s).ofs = s.ofs := rfl
@[simp] theorem loadConstants_inputs (s : State) : (loadConstants s).inputs = s.inputs := rfl
@[simp] theorem loadConstants_responses (s : State) : (loadConstants s).responses = s.responses := rfl
@[simp] theorem loadConstants_free (s : State) : (loadConstants s).free = s.free := rfl

@[simp] theorem loadKey_cfg (key : List Byte) (s : State) : (loadKey key s).cfg = s.cfg := rfl
@[simp] theorem loadKey_S (key : List Byte) (s : State) : (loadKey key s).S = putWords (packWords key) 4 s.S := rfl
@[simp] theorem loadKey_initF (key : List Byte) (s : State) : (loadKey key s).initF = s.initF := rfl
@[simp] theorem loadKey_exh (key : List Byte) (s : State) : (loadKey key s).exh = s.exh := rfl
@[simp] theorem loadKey_ofs (key : List Byte) (s : State) : (loadKey key s).ofs = s.ofs := rfl
@[simp] theorem loadKey_inputs (key : List Byte) (s : State) : (loadKey key s).inputs = s.inputs := rfl
@[simp] theorem loadKey_responses (key : List Byte) (s : State) : (loadKey key s).responses = s.responses := rfl
@[simp] theorem loadKey_free (key : List Byte) (s : State) : (loadKey key s).free = s.free := rfl

@[simp] theorem loadNonce_cfg (nonce : List Byte) (s : State) : (loadNonce nonce s).cfg = s.cfg := rfl
@[simp] theorem loadNonce_S (nonce : List Byte) (s : State) : (loadNonce nonce s).S = putWords (packWords nonce) s.cfg.nonceMode.nonceBase s.S := rfl
@[simp] theorem loadNonce_initF (nonce : List Byte) (s : State) : (loadNonce nonce s).initF = s.initF := rfl
@[simp] theorem loadNonce_exh (nonce : List Byte) (s : State) : (loadNonce nonce s).exh = s.exh := rfl
@[simp] theorem loadNonce_ofs (nonce : List Byte) (s : State) : (loadNonce nonce s).ofs = s.ofs := rfl
@[simp] theorem loadNonce_inputs (nonce : List Byte) (s : State) : (loadNonce nonce s).inputs = s.inputs := rfl
@[simp] theorem loadNonce_responses (nonce : List Byte) (s : State) : (loadNonce nonce s).responses = s.responses := rfl
@[simp] theorem loadNonce_free (nonce : List Byte) (s : State) : (loadNonce nonce s).free = s.free := rfl

@[simp] theorem hardwareReset_cfg (s : State) : (hardwareReset s).cfg = s.cfg := rfl
@[simp] theorem hardwareReset_S (s : State) : (hardwareReset s).S = freeWords s.free := rfl
@[simp] theorem hardwareReset_initF (s : State) : (hardwareReset s).initF = false := rfl
@[simp] theorem hardwareReset_exh (s : State) : (hardwareReset s).exh = false := rfl
@[simp] theorem hardwareReset_ofs (s : State) : (hardwareReset s).ofs = 0 := rfl
@[simp] theorem hardwareReset_inputs (s : State) : (hardwareReset s).inputs = s.inputs := rfl
@[simp] theorem hardwareReset_responses (s : State) : (hardwareReset s).responses = s.responses := rfl
@[simp] theorem hardwareReset_free (s : State) : (hardwareReset s).free = s.free + 16 := rfl

@[simp] theorem idle_eq (s : State) : idle s = s := rfl

@[simp] theorem setPos_cfg (p : Nat) (s : State) : (setPos p s).cfg = s.cfg := by
  unfold setPos; split <;> rfl
@[simp] theorem setPos_initF (p : Nat) (s : State) : (setPos p s).initF = s.initF := by
  unfold setPos; split <;> rfl
@[simp] theorem setPos_inputs (p : Nat) (s : State) : (setPos p s).inputs = s.inputs := by
  unfold setPos; split <;> rfl
@[simp] theorem setPos_responses (p : Nat) (s : State) : (setPos p s).responses = s.responses := by
  unfold setPos; split <;> rfl
@[simp] theorem setPos_free (p : Nat) (s : State) : (setPos p s).free = s.free := by
  unfold setPos; split <;> rfl

theorem setPos_exh (p : Nat) (s : State) : (setPos p s).exh = decide (p = s.cfg.nonceMode.limit) := by
  unfold setPos; split <;> simp_all

theorem setPos_S (p : Nat) (s : State) :
    (setPos p s).S =
      withCtr s.cfg.nonceMode s.S (if p = s.cfg.nonceMode.limit then s.cfg.nonceMode.maxIdx else p / 64) := by
  unfold setPos; split <;> rfl

theorem setPos_ofs (p : Nat) (s : State) :
    (setPos p s).ofs = if p = s.cfg.nonceMode.limit then 0 else BitVec.ofNat 6 (p % 64) := by
  unfold setPos; split <;> rfl

end Sys2Proof.Machine
end

