-- ==== Sys2Proof/Laws/Cursor.lean ====
section
/-! SUPPORT. The counter words and the position cursor (10_state.md R22, R27): reading after writing, and what a
write leaves alone. -/

namespace Sys2Proof.Machine

theorem maxIdx_n64 : NonceMode.n64.maxIdx = 2 ^ 64 - 1 := rfl
theorem maxIdx_n96 : NonceMode.n96.maxIdx = 2 ^ 32 - 1 := rfl
theorem limit_n64 : NonceMode.n64.limit = 2 ^ 70 := rfl
theorem limit_n96 : NonceMode.n96.limit = 2 ^ 38 := rfl

/-- LIMIT is the first position past block MAXIDX (00_scope.md R8). -/
theorem limit_eq (m : NonceMode) : m.limit = (m.maxIdx + 1) * 64 := by cases m <;> rfl

theorem ctrOf_n64 (S : Words) : ctrOf .n64 S = S[12].toNat + 2 ^ 32 * S[13].toNat := by
  have h := S[12].isLt
  simp only [ctrOf, BitVec.toNat_append, Nat.shiftLeft_eq]
  rw [Nat.mul_comm, ← Nat.two_pow_add_eq_or_of_lt h]
  omega

theorem ctrOf_n96 (S : Words) : ctrOf .n96 S = S[12].toNat := rfl

/-- The counter words hold a block index (10_state.md R20). -/
theorem ctrOf_le (m : NonceMode) (S : Words) : ctrOf m S ≤ m.maxIdx := by
  have h12 := S[12].isLt
  have h13 := S[13].isLt
  cases m
  · rw [ctrOf_n64, maxIdx_n64]; omega
  · rw [ctrOf_n96, maxIdx_n96]; omega

/-- Reading the counter after writing it. -/
theorem ctrOf_withCtr (m : NonceMode) (S : Words) (idx : Nat) (h : idx ≤ m.maxIdx) :
    ctrOf m (withCtr m S idx) = idx := by
  cases m
  · rw [maxIdx_n64] at h
    rw [ctrOf_n64]
    simp [withCtr]
    omega
  · rw [maxIdx_n96] at h
    rw [ctrOf_n96]
    simp [withCtr]
    omega

/-- Writing the counter back as it stands changes nothing. -/
theorem withCtr_ctrOf (m : NonceMode) (S : Words) : withCtr m S (ctrOf m S) = S := by
  have h12 := S[12].isLt
  have h13 := S[13].isLt
  ext i hi : 1
  cases m
  · rw [ctrOf_n64]
    simp only [withCtr, Vector.getElem_set]
    split
    · subst i; apply BitVec.eq_of_toNat_eq; simp; omega
    · split
      · subst i; apply BitVec.eq_of_toNat_eq; simp; omega
      · rfl
  · rw [ctrOf_n96]
    simp only [withCtr, Vector.getElem_set]
    split
    · subst i; simp
    · rfl

/-- A counter write leaves every other word alone. -/
theorem withCtr_getElem (m : NonceMode) (S : Words) (idx i : Nat) (h : i < 16)
    (h12 : i ≠ 12) (h13 : m = .n64 → i ≠ 13) : (withCtr m S idx)[i] = S[i] := by
  cases m
  · simp [withCtr, h12.symm, (h13 rfl).symm]
  · simp [withCtr, h12.symm]

/-- The second of two counter writes stands. -/
@[simp] theorem withCtr_withCtr (m : NonceMode) (S : Words) (a b : Nat) :
    withCtr m (withCtr m S a) b = withCtr m S b := by
  ext i hi : 1
  cases m <;> simp only [withCtr, Vector.getElem_set] <;> repeat' split
  all_goals rfl

theorem State.ctr_le (s : State) : s.ctr ≤ s.cfg.nonceMode.maxIdx := ctrOf_le _ _

/-- The cursor lies in 0 .. LIMIT (10_state.md R27). -/
theorem State.pos_le (s : State) : s.pos ≤ s.cfg.nonceMode.limit := by
  unfold State.pos
  split
  · exact Nat.le_refl _
  · have := s.ctr_le
    have := s.ofs.isLt
    rw [limit_eq]; omega

/-- EXH marks exactly the position LIMIT (10_state.md R26, R27). -/
theorem State.pos_eq_limit (s : State) : s.pos = s.cfg.nonceMode.limit ↔ s.exh = true := by
  unfold State.pos
  split
  · simp_all
  · have := s.ctr_le
    have := s.ofs.isLt
    rw [limit_eq]; constructor
    · omega
    · simp_all

/-- Reading the cursor after `SetPos`. -/
theorem pos_setPos (p : Nat) (s : State) (h : p ≤ s.cfg.nonceMode.limit) : (setPos p s).pos = p := by
  unfold State.pos
  rw [setPos_exh, setPos_cfg, setPos_ofs]
  by_cases hp : p = s.cfg.nonceMode.limit
  · simp [hp]
  · have hq : p / 64 ≤ s.cfg.nonceMode.maxIdx := by rw [limit_eq] at h hp; omega
    simp only [hp, decide_false, Bool.false_eq_true, if_false, State.ctr, setPos_cfg, setPos_S]
    rw [ctrOf_withCtr _ _ _ hq]
    simp
    omega

/-- Writing the cursor back as it stands changes nothing, if EXH marks the end as R26 says. -/
theorem setPos_pos (s : State) (h : s.exh = true → s.ctr = s.cfg.nonceMode.maxIdx ∧ s.ofs = 0) :
    setPos s.pos s = s := by
  have ho := s.ofs.isLt
  by_cases hx : s.exh = true
  · obtain ⟨hc, hz⟩ := h hx
    have hp := s.pos_eq_limit.2 hx
    unfold setPos
    rw [if_pos hp, ← hc, State.ctr, setCtr, withCtr_ctrOf, ← hz, ← hx]
  · have hp : s.pos ≠ s.cfg.nonceMode.limit := fun e => hx (s.pos_eq_limit.1 e)
    have hpos : s.pos = s.ctr * 64 + s.ofs.toNat := by simp [State.pos, hx]
    have hq : s.pos / 64 = s.ctr := by omega
    have hr : BitVec.ofNat 6 (s.pos % 64) = s.ofs := by
      apply BitVec.eq_of_toNat_eq; simp; omega
    have hf : s.exh = false := by simpa using hx
    unfold setPos
    rw [if_neg hp, hq, hr, State.ctr, setCtr, withCtr_ctrOf, ← hf]

/-- Moving the cursor reads none of the ports and writes none. -/
theorem setPos_ports (p : Nat) (s : State) (a : List HostEvent) (b : List Response) (c : Nat) :
    setPos p { s with inputs := a, responses := b, free := c } =
      { setPos p s with inputs := a, responses := b, free := c } := by
  unfold setPos
  by_cases h : p = s.cfg.nonceMode.limit
  · rw [if_pos h, if_pos h]; rfl
  · rw [if_neg h, if_neg h]; rfl

end Sys2Proof.Machine
end

