-- ==== Sys2Proof/Laws/Encoding.lean ====
section
/-! SUPPORT. The command word and its fields (30_encoding.md R47): each field read back from a word put together
from its fields, and a word that selects a row put together again from its fields. -/

namespace Sys2Proof

/-- A length that fits a field, as the field's value. -/
theorem ofNat_eq_setWidth (w n : Nat) (h : n < 2 ^ w) (hw : w ≤ 32) :
    BitVec.ofNat 32 n = (BitVec.ofNat w n).setWidth 32 := by
  apply BitVec.eq_of_toNat_eq
  have : 2 ^ w ≤ 2 ^ 32 := Nat.pow_le_pow_right (by decide) hw
  rw [BitVec.toNat_setWidth, BitVec.toNat_ofNat, BitVec.toNat_ofNat, Nat.mod_eq_of_lt h]

/-- The FK word of a key length and a nonce length. -/
def wordFK (k n : BitVec 8) : Word := 0x01 ||| k.setWidth 32 <<< 16 ||| n.setWidth 32 <<< 24

/-- The FN word of a nonce length. -/
def wordFN (n : BitVec 8) : Word := 0x02 ||| n.setWidth 32 <<< 24

/-- The FD word of a direction and a data length. -/
def wordFD (d : Dir) (l : BitVec 16) : Word := 0x06 ||| dirBit d ||| l.setWidth 32 <<< 16

theorem wordFK_fields (k n : BitVec 8) :
    opcField (wordFK k n) = 0x01 ∧ klenField (wordFK k n) = k ∧ nlenField (wordFK k n) = n ∧
      wordFK k n &&& 0x0000FFFF = 0x00000001 := by
  refine ⟨?_, ?_, ?_, ?_⟩ <;> apply BitVec.eq_of_getLsbD_eq <;> intro i hi <;>
    simp only [opcField, klenField, nlenField, wordFK] <;> interval_cases i <;> simp

theorem wordFN_fields (n : BitVec 8) :
    opcField (wordFN n) = 0x02 ∧ nlenField (wordFN n) = n ∧ wordFN n &&& 0x00FFFFFF = 0x00000002 := by
  refine ⟨?_, ?_, ?_⟩ <;> apply BitVec.eq_of_getLsbD_eq <;> intro i hi <;>
    simp only [opcField, nlenField, wordFN] <;> interval_cases i <;> simp

theorem wordFD_fields (d : Dir) (l : BitVec 16) :
    opcField (wordFD d l) = 0x06 ∧ lenField (wordFD d l) = l ∧ dirField (wordFD d l) = d ∧
      wordFD d l &&& 0x0000FEFF = 0x00000006 := by
  refine ⟨?_, ?_, ?_, ?_⟩
  case refine_3 => cases d <;> simp [dirField, wordFD, dirBit]
  all_goals
    apply BitVec.eq_of_getLsbD_eq; intro i hi
    simp only [opcField, lenField, wordFD]
    cases d <;> simp only [dirBit] <;> interval_cases i <;> simp

/-- One bit of a masked word that equals a pattern. -/
theorem bit_of_mask {cw m p : Word} (h : cw &&& m = p) (i : Nat) (hm : m.getLsbD i = true) :
    cw.getLsbD i = p.getLsbD i := by
  rw [← h, BitVec.getLsbD_and, hm, Bool.and_true]

theorem eq_wordFK {cw : Word} (h : cw &&& 0x0000FFFF = 0x00000001) : cw = wordFK (klenField cw) (nlenField cw) := by
  apply BitVec.eq_of_getLsbD_eq
  intro i hi
  have hb := bit_of_mask h i
  simp only [klenField, nlenField, wordFK]
  interval_cases i <;> simp_all

theorem eq_wordFN {cw : Word} (h : cw &&& 0x00FFFFFF = 0x00000002) : cw = wordFN (nlenField cw) := by
  apply BitVec.eq_of_getLsbD_eq
  intro i hi
  have hb := bit_of_mask h i
  simp only [nlenField, wordFN]
  interval_cases i <;> simp_all

theorem eq_wordFD {cw : Word} (h : cw &&& 0x0000FEFF = 0x00000006) : cw = wordFD (dirField cw) (lenField cw) := by
  apply BitVec.eq_of_getLsbD_eq
  intro i hi
  have hb := bit_of_mask h i
  simp only [lenField, wordFD]
  by_cases hd : cw.getLsbD 8
  · simp only [dirField, hd, if_true, dirBit]
    interval_cases i <;> simp_all
  · simp only [dirField, hd, dirBit]
    interval_cases i <;> simp_all

end Sys2Proof
end

