-- ==== Sys2Proof/Laws/Packer.lean ====
section
/-! SUPPORT. The packer's functions (42_le_packer.md): lengths, where each word goes, and the bytes of the
keystream of a stream. -/

namespace Sys2Proof.Machine

@[simp] theorem leBytes_length (w : Word) : (leBytes w).length = 4 := rfl

@[simp] theorem leU64Bytes_length (v : BitVec 64) : (leU64Bytes v).length = 8 := rfl

/-- What loading a list of words leaves in each position (42_le_packer.md R91, R92). -/
theorem putWords_getElem (ws : List Word) (base : Nat) (S : Words) (i : Nat) (hi : i < 16) :
    (putWords ws base S)[i] = if h : base ≤ i ∧ i < base + ws.length then ws[i - base] else S[i] := by
  induction ws generalizing base S with
  | nil => simp [putWords]
  | cons w ws ih =>
    rw [putWords, ih]
    by_cases h1 : base + 1 ≤ i ∧ i < base + 1 + ws.length
    · have h2 : base ≤ i ∧ i < base + (w :: ws).length := by simp only [List.length_cons]; omega
      rw [dif_pos h1, dif_pos h2]
      have : i - base = i - (base + 1) + 1 := by omega
      simp [this]
    · rw [dif_neg h1, Vector.getElem_setIfInBounds]
      by_cases h3 : base = i
      · subst h3; simp
      · have h2 : ¬(base ≤ i ∧ i < base + (w :: ws).length) := by simp only [List.length_cons]; omega
        rw [if_neg h3, dif_neg h2]

/-- Packing takes four bytes a word. -/
theorem packWords_length (bs : List Byte) : (packWords bs).length = bs.length / 4 := by
  induction bs using packWords.induct with
  | case1 b0 b1 b2 b3 rest ih => simp [packWords, ih]; omega
  | case2 bs h =>
    rcases bs with _ | ⟨b0, _ | ⟨b1, _ | ⟨b2, _ | ⟨b3, r⟩⟩⟩⟩ <;> simp [packWords]
    exact (h _ _ _ _ _ rfl).elim

/-- Word `i` of a packed list is `le_word` of bytes 4i .. 4i+3. -/
theorem packWords_getElem (bs : List Byte) (i : Nat) (h : i < (packWords bs).length) :
    (packWords bs)[i] =
      leWord (bs.getD (4 * i) 0) (bs.getD (4 * i + 1) 0) (bs.getD (4 * i + 2) 0) (bs.getD (4 * i + 3) 0) := by
  induction bs using packWords.induct generalizing i with
  | case1 b0 b1 b2 b3 rest ih =>
    cases i with
    | zero => simp [packWords]
    | succ i =>
      have hr : i < (packWords rest).length := by simpa [packWords] using h
      simp [packWords, ih i hr, show 4 * (i + 1) = 4 * i + 4 by omega]
  | case2 bs hn =>
    rw [packWords_length] at h
    rcases bs with _ | ⟨b0, _ | ⟨b1, _ | ⟨b2, _ | ⟨b3, r⟩⟩⟩⟩ <;> simp at h
    exact (hn _ _ _ _ _ rfl).elim

/-- What loading a list of 4 n bytes leaves in each position (42_le_packer.md R91, R92). -/
theorem putWords_packWords_getElem (bs : List Byte) (base n : Nat) (hn : bs.length = 4 * n) (S : Words) (i : Nat)
    (h : i < 16) :
    (putWords (packWords bs) base S)[i] =
      if base ≤ i ∧ i < base + n then
        leWord (bs.getD (4 * (i - base)) 0) (bs.getD (4 * (i - base) + 1) 0) (bs.getD (4 * (i - base) + 2) 0)
          (bs.getD (4 * (i - base) + 3) 0)
      else S[i] := by
  have hl : (packWords bs).length = n := by rw [packWords_length]; omega
  rw [putWords_getElem]
  by_cases hc : base ≤ i ∧ i < base + n
  · rw [dif_pos (by rw [hl]; exact hc), if_pos hc]; exact packWords_getElem _ _ _
  · rw [dif_neg (by rw [hl]; exact hc), if_neg hc]

theorem flatMap_leBytes_length (l : List Word) : (l.flatMap leBytes).length = 4 * l.length := by
  induction l with
  | nil => rfl
  | cons w l ih => simp [ih]; omega

/-- A serialized value has 64 bytes (42_le_packer.md R93). -/
@[simp] theorem serialize_length (x : Words) : (serialize x).length = 64 := by
  rw [serialize, flatMap_leBytes_length]; simp

/-- A keystream block has 64 bytes (41_block_function.md R72). -/
@[simp] theorem ks_length (x : Words) (r : Rounds) : (ks x r).length = 64 := serialize_length _

/-- Bytes of a run of blocks, each of 64 bytes. -/
theorem blocks_getElem? (f : Nat → List Byte) (hf : ∀ j, (f j).length = 64) (n k : Nat) (hk : k < 64 * n) :
    ((List.range n).flatMap f)[k]? = (f (k / 64))[k % 64]? := by
  induction n with
  | zero => omega
  | succ n ih =>
    have hl : ((List.range n).flatMap f).length = 64 * n := by
      rw [List.length_flatMap]; simp [hf]; omega
    rw [List.range_succ, List.flatMap_append]
    by_cases h : k < 64 * n
    · rw [List.getElem?_append_left (by omega), ih h]
    · rw [List.getElem?_append_right (by omega), hl]
      have hq : n = k / 64 := by omega
      have hr : k - 64 * n = k % 64 := by omega
      simp [hr, ← hq]

/-- The keystream from position `p` on: byte `k` is KSByte(p + k) (44_cmd_stream.md R123; 41_block_function.md
R76). -/
theorem keystream_getElem? (cfg : Config) (S : Words) (p n k : Nat) (hk : k < n) :
    (keystream cfg S p n)[k]? = some (ksByte cfg S (p + k)) := by
  have hb : blocksFor (p % 64) n = (p % 64 + n + 63) / 64 := by simp [blocksFor]; omega
  rw [keystream, List.getElem?_take_of_lt hk, List.getElem?_drop, hb,
    blocks_getElem? _ (fun j => ks_length _ _) _ _ (by omega)]
  have hq : p / 64 + (p % 64 + k) / 64 = (p + k) / 64 := by omega
  have hr : (p % 64 + k) % 64 = (p + k) % 64 := by omega
  rw [hq, hr, ksByte, List.getD_eq_getElem?_getD, List.getElem?_eq_getElem (by simp; omega)]
  simp

/-- The keystream has as many bytes as asked for. -/
@[simp] theorem keystream_length (cfg : Config) (S : Words) (p n : Nat) : (keystream cfg S p n).length = n := by
  have h1 : n ≤ (keystream cfg S p n).length := by
    rcases Nat.eq_zero_or_pos n with h | h
    · omega
    · have := keystream_getElem? cfg S p n (n - 1) (by omega)
      have := (List.getElem?_eq_some_iff.1 this).1
      omega
  have h2 : (keystream cfg S p n).length ≤ n := by rw [keystream]; simp
  omega

end Sys2Proof.Machine
end

