-- ==== Sys2Proof/Laws/Exec.lean ====
section
/-! SUPPORT. What a command can do, and what a step can do: the inversion lemmas from which statements about all
commands and all steps are derived. -/

namespace Sys2Proof.Machine

/-! ### Stage 2 and responses -/

@[simp] theorem whenInitialized_true {s : State} (h : s.initF = true) (b : Host.Outcome State Fault Refusal) :
    whenInitialized s b = b := by simp [whenInitialized, h]

@[simp] theorem whenInitialized_false {s : State} (h : s.initF = false) (b : Host.Outcome State Fault Refusal) :
    whenInitialized s b = .next (fail .notInitialized s) := by simp [whenInitialized, h]

/-- RESULT of a response, whatever its data (30_encoding.md R54). -/
theorem mkResponse_resultField (r : Result) (data : List Byte) :
    (mkResponse r data).resultField = r.code.setWidth 8 := by
  apply BitVec.eq_of_getLsbD_eq
  intro i hi
  simp only [Response.resultField, mkResponse]
  cases r <;> simp only [Result.code] <;> interval_cases i <;> simp

/-- RESULT 0x00 is OK and nothing else. -/
theorem resultField_eq_zero (r : Result) (data : List Byte) : (mkResponse r data).resultField = 0 ↔ r = .ok := by
  rw [mkResponse_resultField]; cases r <;> simp [Result.code]

/-- DLEN is the number of data bytes (30_encoding.md R54). -/
theorem mkResponse_dlen (r : Result) (data : List Byte) :
    (mkResponse r data).dlen = BitVec.ofNat 16 data.length := by
  have hw : BitVec.ofNat 16 data.length = (BitVec.ofNat 32 data.length).setWidth 16 := by
    apply BitVec.eq_of_toNat_eq; simp
  rw [hw, Response.dlen, mkResponse]
  generalize BitVec.ofNat 32 data.length = n
  apply BitVec.eq_of_getLsbD_eq
  intro i hi
  cases r <;> simp only [Result.code] <;> interval_cases i <;> simp

theorem mkResponse_error (r : Result) : mkResponse r [] = ⟨r.code, []⟩ := by cases r <;> rfl

/-! ### Commands that succeed -/

/-- INIT with a 32-byte key and a nonce of the configured length. -/
theorem exec_init_ok {key nonce : List Byte} {s : State} (hk : key.length = 32)
    (hn : nonce.length = s.cfg.nonceMode.nonceLen) :
    exec (.init key nonce) s =
      .next (respond .ok []
        { resetStream (loadNonce nonce (loadKey key (loadConstants s))) with initF := true }) := by
  simp [exec, execInit, hk, hn]

theorem exec_resync_ok {nonce : List Byte} {s : State} (hi : s.initF = true)
    (hn : nonce.length = s.cfg.nonceMode.nonceLen) :
    exec (.resync nonce) s = .next (respond .ok [] (resetStream (loadNonce nonce s))) := by
  simp [exec, execResync, hi, hn]

theorem exec_seek_ok {idx : BitVec 64} {s : State} (hi : s.initF = true)
    (h : idx.toNat ≤ s.cfg.nonceMode.maxIdx) :
    exec (.seek idx) s = .next (respond .ok [] { setCtr idx.toNat s with ofs := 0, exh := false }) := by
  simp [exec, execSeek, hi, Nat.not_lt.2 h]

theorem exec_ksblkIdx_ok {idx : BitVec 64} {s : State} (hi : s.initF = true)
    (h : idx.toNat ≤ s.cfg.nonceMode.maxIdx) :
    exec (.ksblkIdx idx) s =
      .next (respond .ok (ks (withCtr s.cfg.nonceMode s.S idx.toNat) s.cfg.rounds) s) := by
  simp [exec, execKsblkIdx, hi, Nat.not_lt.2 h]

theorem exec_ksblk_ok {s : State} (hi : s.initF = true) (hx : s.exh = false) :
    exec .ksblk s = .next (respond .ok (ks s.S s.cfg.rounds) s) := by
  simp [exec, execKsblk, hi, hx]

theorem exec_combine_ok {dir : Dir} {data : List Byte} {s : State} (hi : s.initF = true)
    (h : s.pos + data.length ≤ s.cfg.nonceMode.limit) :
    exec (.combine dir data) s =
      .next (respond .ok (combineBytes s.cfg s.S s.pos data) (setPos (s.pos + data.length) s)) := by
  simp [exec, execCombine, hi, Nat.not_lt.2 h]

theorem exec_status (s : State) : exec .status s = .next (respond .ok (leBytes (statusWord s)) s) := rfl

/-! ### What a command can do -/

/-- The state changes a successful command may make, before its response. -/
inductive Effect : Instr → State → State → Prop where
  | init {key nonce s} (hk : key.length = 32) (hn : nonce.length = s.cfg.nonceMode.nonceLen) :
      Effect (.init key nonce) s
        { resetStream (loadNonce nonce (loadKey key (loadConstants s))) with initF := true }
  | resync {nonce s} (hi : s.initF = true) (hn : nonce.length = s.cfg.nonceMode.nonceLen) :
      Effect (.resync nonce) s (resetStream (loadNonce nonce s))
  | seek {idx : BitVec 64} {s : State} (hi : s.initF = true) (h : idx.toNat ≤ s.cfg.nonceMode.maxIdx) :
      Effect (.seek idx) s { setCtr idx.toNat s with ofs := 0, exh := false }
  | ksblk {s : State} (hi : s.initF = true) (hx : s.exh = false) : Effect .ksblk s s
  | ksblkIdx {idx : BitVec 64} {s : State} (hi : s.initF = true) (h : idx.toNat ≤ s.cfg.nonceMode.maxIdx) :
      Effect (.ksblkIdx idx) s s
  | combine {dir data} {s : State} (hi : s.initF = true) (h : s.pos + data.length ≤ s.cfg.nonceMode.limit) :
      Effect (.combine dir data) s (setPos (s.pos + data.length) s)
  | status {s : State} : Effect .status s s

/-- Every command answers a next state: an error response and nothing else, or its effect and an OK response
(43_cmd_setup.md R99; 60_exceptions.md R140). -/
theorem exec_cases (i : Instr) (s : State) :
    (∃ r, r ≠ .ok ∧ exec i s = .next (fail r s)) ∨
      ∃ u data, Effect i s u ∧ exec i s = .next (respond .ok data u) := by
  cases i with
  | init key nonce =>
    by_cases hk : key.length = 32
    · by_cases hn : nonce.length = s.cfg.nonceMode.nonceLen
      · exact .inr ⟨_, _, .init hk hn, exec_init_ok hk hn⟩
      · exact .inl ⟨.invalidNonceLength, by decide, by simp [exec, execInit, hk, hn]⟩
    · exact .inl ⟨.invalidKeyLength, by decide, by simp [exec, execInit, hk]⟩
  | resync nonce =>
    cases hi : s.initF
    · exact .inl ⟨.notInitialized, by decide, by simp [exec, execResync, hi]⟩
    · by_cases hn : nonce.length = s.cfg.nonceMode.nonceLen
      · exact .inr ⟨_, _, .resync hi hn, exec_resync_ok hi hn⟩
      · exact .inl ⟨.invalidNonceLength, by decide, by simp [exec, execResync, hi, hn]⟩
  | seek idx =>
    cases hi : s.initF
    · exact .inl ⟨.notInitialized, by decide, by simp [exec, execSeek, hi]⟩
    · by_cases h : idx.toNat ≤ s.cfg.nonceMode.maxIdx
      · exact .inr ⟨_, _, .seek hi h, exec_seek_ok hi h⟩
      · exact .inl ⟨.counterOverflow, by decide, by simp [exec, execSeek, hi, Nat.lt_of_not_le h]⟩
  | ksblk =>
    cases hi : s.initF
    · exact .inl ⟨.notInitialized, by decide, by simp [exec, execKsblk, hi]⟩
    · cases hx : s.exh
      · exact .inr ⟨_, _, .ksblk hi hx, exec_ksblk_ok hi hx⟩
      · exact .inl ⟨.counterOverflow, by decide, by simp [exec, execKsblk, hi, hx]⟩
  | ksblkIdx idx =>
    cases hi : s.initF
    · exact .inl ⟨.notInitialized, by decide, by simp [exec, execKsblkIdx, hi]⟩
    · by_cases h : idx.toNat ≤ s.cfg.nonceMode.maxIdx
      · exact .inr ⟨_, _, .ksblkIdx hi h, exec_ksblkIdx_ok hi h⟩
      · exact .inl ⟨.counterOverflow, by decide, by simp [exec, execKsblkIdx, hi, Nat.lt_of_not_le h]⟩
  | combine dir data =>
    cases hi : s.initF
    · exact .inl ⟨.notInitialized, by decide, by simp [exec, execCombine, hi]⟩
    · by_cases h : s.pos + data.length ≤ s.cfg.nonceMode.limit
      · exact .inr ⟨_, _, .combine hi h, exec_combine_ok hi h⟩
      · exact .inl ⟨.counterOverflow, by decide, by simp [exec, execCombine, hi, Nat.lt_of_not_le h]⟩
  | status => exact .inr ⟨_, _, .status, exec_status s⟩

/-- The fields no command writes. -/
theorem Effect.frame {i : Instr} {s u : State} (h : Effect i s u) :
    u.cfg = s.cfg ∧ u.inputs = s.inputs ∧ u.responses = s.responses ∧ u.free = s.free := by
  cases h <;> simp

/-- The ports carry a command and do not steer it: what it writes, and its response, depend on the other fields of the
state alone, and it leaves `inputs` and `free` as they are. -/
theorem exec_ports (i : Instr) (s : State) : ∃ S' f e o r, ∀ a b c,
    exec i { s with inputs := a, responses := b, free := c } = .next ⟨s.cfg, S', f, e, o, a, b ++ [r], c⟩ := by
  have err : ∀ r : Result,
      (∀ a b c, exec i { s with inputs := a, responses := b, free := c } =
        .next (fail r { s with inputs := a, responses := b, free := c })) →
      ∃ S' f e o r, ∀ a b c,
        exec i { s with inputs := a, responses := b, free := c } = .next ⟨s.cfg, S', f, e, o, a, b ++ [r], c⟩ :=
    fun r h => ⟨s.S, s.initF, s.exh, s.ofs, mkResponse r [], fun a b c => h a b c⟩
  have ok : ∀ (v : State) d, v.cfg = s.cfg →
      (∀ a b c, exec i { s with inputs := a, responses := b, free := c } =
        .next (respond .ok d { v with inputs := a, responses := b, free := c })) →
      ∃ S' f e o r, ∀ a b c,
        exec i { s with inputs := a, responses := b, free := c } = .next ⟨s.cfg, S', f, e, o, a, b ++ [r], c⟩ :=
    fun v d hv h => ⟨v.S, v.initF, v.exh, v.ofs, mkResponse .ok d, fun a b c => by rw [h a b c, ← hv]; rfl⟩
  cases i with
  | init key nonce =>
    by_cases hk : key.length = 32
    · by_cases hn : nonce.length = s.cfg.nonceMode.nonceLen
      · exact ok { resetStream (loadNonce nonce (loadKey key (loadConstants s))) with initF := true } [] (by simp)
          (fun a b c => (exec_init_ok (s := { s with inputs := a, responses := b, free := c }) hk hn).trans (by simp only [respond, resetStream, setCtr, loadNonce, loadKey, loadConstants]))
      · exact err .invalidNonceLength (fun a b c => by simp [exec, execInit, hk, hn])
    · exact err .invalidKeyLength (fun a b c => by simp [exec, execInit, hk])
  | resync nonce =>
    by_cases hi : s.initF = true
    · by_cases hn : nonce.length = s.cfg.nonceMode.nonceLen
      · exact ok (resetStream (loadNonce nonce s)) [] (by simp)
          (fun a b c => (exec_resync_ok (s := { s with inputs := a, responses := b, free := c }) hi hn).trans (by simp only [respond, resetStream, setCtr, loadNonce]))
      · exact err .invalidNonceLength (fun a b c => by simp [exec, execResync, hn, whenInitialized, hi])
    · exact err .notInitialized (fun a b c => by simp [exec, execResync, whenInitialized, hi])
  | seek idx =>
    by_cases hi : s.initF = true
    · by_cases h : idx.toNat ≤ s.cfg.nonceMode.maxIdx
      · exact ok { setCtr idx.toNat s with ofs := 0, exh := false } [] rfl
          (fun a b c => exec_seek_ok (s := { s with inputs := a, responses := b, free := c }) hi h)
      · exact err .counterOverflow (fun a b c => by simp [exec, execSeek, Nat.lt_of_not_le h, whenInitialized, hi])
    · exact err .notInitialized (fun a b c => by simp [exec, execSeek, whenInitialized, hi])
  | ksblkIdx idx =>
    by_cases hi : s.initF = true
    · by_cases h : idx.toNat ≤ s.cfg.nonceMode.maxIdx
      · exact ok s (ks (withCtr s.cfg.nonceMode s.S idx.toNat) s.cfg.rounds) rfl
          (fun a b c => exec_ksblkIdx_ok (s := { s with inputs := a, responses := b, free := c }) hi h)
      · exact err .counterOverflow (fun a b c => by simp [exec, execKsblkIdx, Nat.lt_of_not_le h, whenInitialized, hi])
    · exact err .notInitialized (fun a b c => by simp [exec, execKsblkIdx, whenInitialized, hi])
  | ksblk =>
    by_cases hi : s.initF = true
    · by_cases h : s.exh = true
      · exact err .counterOverflow (fun a b c => by simp [exec, execKsblk, whenInitialized, hi, h])
      · exact ok s (ks s.S s.cfg.rounds) rfl
          (fun a b c => exec_ksblk_ok (s := { s with inputs := a, responses := b, free := c }) hi (by simpa using h))
    · exact err .notInitialized (fun a b c => by simp [exec, execKsblk, whenInitialized, hi])
  | combine dir data =>
    by_cases hi : s.initF = true
    · by_cases h : s.pos + data.length ≤ s.cfg.nonceMode.limit
      · refine ok (setPos (s.pos + data.length) s) (combineBytes s.cfg s.S s.pos data) (setPos_cfg _ _) (fun a b c => ?_)
        have := exec_combine_ok (dir := dir) (s := { s with inputs := a, responses := b, free := c }) hi h
        rw [← setPos_ports]; exact this
      · refine err .counterOverflow (fun a b c => ?_)
        have h2 : ¬ (State.pos { s with inputs := a, responses := b, free := c } + data.length ≤ s.cfg.nonceMode.limit) := h
        have := Nat.lt_of_not_le h2
        exact (whenInitialized_true (s := { s with inputs := a, responses := b, free := c }) hi _).trans (if_pos this)
    · exact err .notInitialized (fun a b c => by simp [exec, execCombine, whenInitialized, hi])
  | status => exact ok s (leBytes (statusWord s)) rfl (fun a b c => rfl)

/-! ### What a step can do -/

/-- A run in the model's own types is the host interface's run. -/
theorem run_eq_runSteps (n : Nat) (s : Sys2Proof.core.State) : Sys2Proof.core.run n s = runSteps n s := by
  induction n generalizing s with
  | zero => rfl
  | succ n ih =>
    have e : Sys2Proof.core.step s = step s := rfl
    have r : runSteps (n + 1) s =
      match step s with
      | .next t => runSteps n t
      | .fault r => .fault r
      | .refused r => .refused r := rfl
    rw [Host.Core.run, e, r]
    cases step s with
    | next t => exact ih t
    | fault r => rfl
    | refused r => rfl

/-- A step that answers a next state did one of these, and nothing else (00_scope.md R10; 60_exceptions.md R149;
70_reset_and_hazards.md R151; 43_cmd_setup.md R99). -/
theorem step_cases {s t : State} (h : step s = .next t) :
    (s.inputs = [] ∧ t = s) ∨
    (∃ x rest, s.inputs = .reset x :: rest ∧ t = hardwareReset { s with inputs := rest }) ∨
    (∃ c rest, s.inputs = .command c :: rest ∧ c.payload.length = plen c.cw ∧
      ((selectRow c.cw = none ∧ t = fail .illegalCommand { s with inputs := rest }) ∨
        ∃ i, decode c = .ok i ∧ exec i { s with inputs := rest } = .next t)) := by
  unfold step at h
  split at h
  next hi => exact .inl ⟨hi, by simpa using h.symm⟩
  next x rest hi => exact .inr (.inl ⟨x, rest, hi, by simpa using h.symm⟩)
  next c rest hi =>
    refine .inr (.inr ⟨c, rest, hi, ?_⟩)
    by_cases hp : c.payload.length = plen c.cw
    · refine ⟨hp, ?_⟩
      cases hr : selectRow c.cw with
      | none =>
        left
        refine ⟨rfl, ?_⟩
        have hd : decode c = .error (illegalReason c.cw) := by simp [decode, hp, hr]
        simp only [hd] at h
        unfold illegalReason at h
        split at h
        · simpa [rejectCommand] using h.symm
        · split at h <;> simpa [rejectCommand] using h.symm
      | some op =>
        right
        have hd : decode c = .ok (operandsOf c.cw c.payload op) := by simp [decode, hp, hr]
        simp only [hd] at h
        exact ⟨_, hd, h⟩
    · have hd : decode c = .error .payloadLength := by simp [decode, hp]
      simp [hd, rejectCommand] at h

end Sys2Proof.Machine
end

