-- ==== Sys2Proof/Laws/PerInstr.lean ====
section
/-! SUPPORT. Statements made once per constructor of `Instr`. Family Framed: the payload of an encoded instruction
has the length its command word announces (30_encoding.md R46, R53). -/

namespace Sys2Proof.Laws.Framed

open Sys2Proof Sys2Proof.Machine

/-- The encoded instruction is a transaction the engine has a step for. -/
def Statement (i : Instr) : Prop := i.wf = true → (encode i).payload.length = plen (encode i).cw

theorem init (key nonce : List Byte) : Statement (.init key nonce) := by
  intro h
  simp only [Instr.wf, Bool.and_eq_true, decide_eq_true_eq] at h
  obtain ⟨ho, hk, hn, -⟩ := wordFK_fields (BitVec.ofNat 8 key.length) (BitVec.ofNat 8 nonce.length)
  simp only [wordFK] at ho hk hn
  simp only [encode]
  rw [ofNat_eq_setWidth 8 key.length h.1 (by decide), ofNat_eq_setWidth 8 nonce.length h.2 (by decide)]
  simp only [plen, ho, hk, hn, if_true]
  simp [Nat.mod_eq_of_lt h.1, Nat.mod_eq_of_lt h.2]

theorem resync (nonce : List Byte) : Statement (.resync nonce) := by
  intro h
  simp only [Instr.wf, decide_eq_true_eq] at h
  obtain ⟨ho, hn, -⟩ := wordFN_fields (BitVec.ofNat 8 nonce.length)
  simp only [wordFN] at ho hn
  simp only [encode]
  rw [ofNat_eq_setWidth 8 nonce.length h (by decide)]
  simp only [plen, ho, hn]
  simp [Nat.mod_eq_of_lt h]

theorem seek (idx : BitVec 64) : Statement (.seek idx) := fun _ => leU64Bytes_length idx

theorem ksblk : Statement .ksblk := fun _ => rfl

theorem ksblkIdx (idx : BitVec 64) : Statement (.ksblkIdx idx) := fun _ => leU64Bytes_length idx

theorem combine (dir : Dir) (data : List Byte) : Statement (.combine dir data) := by
  intro h
  simp only [Instr.wf, decide_eq_true_eq] at h
  obtain ⟨ho, hl, -⟩ := wordFD_fields dir (BitVec.ofNat 16 data.length)
  simp only [wordFD] at ho hl
  simp only [encode]
  rw [ofNat_eq_setWidth 16 data.length h (by decide)]
  simp only [plen, ho, hl]
  simp [Nat.mod_eq_of_lt h]

theorem status : Statement .status := fun _ => rfl

end Sys2Proof.Laws.Framed
end

