-- ==== Sys2Proof/Tests/Slice0.lean ====
section
/-! SUPPORT. Tests: every expected value is written from the spec (95_test_vectors.md, or a rule's own example) and
named in the comment before it. The last part shows, for every statement with hypotheses, a state and operands that
meet them all. -/

namespace Sys2Proof.Machine.Tests

open Sys2Proof Sys2Proof.Machine

-- one theorem at a time: each elaboration thread reserves a whole stack
set_option Elab.async false

/-! ### Helpers -/

def zeros (n : Nat) : List Byte := List.replicate n 0

/-- 00 01 02 .. (n - 1). -/
def counting (n : Nat) : List Byte := (List.range n).map (BitVec.ofNat 8)

/-- An initialised engine at position 0. -/
def ready (m : NonceMode) (key nonce : List Byte) : State :=
  { State.powerOn ⟨.r20, m⟩ with S := inputState m key nonce 0, initF := true }

/-- The engine after `INIT 00×32, 00×NLEN`. -/
def readyZero (m : NonceMode) : State := ready m (zeros 32) (zeros m.nonceLen)

/-- The N96 engine four bytes before LIMIT (after line 4 of program P3, 95_test_vectors.md section 3). -/
def nearEnd : State := { readyZero .n96 with S := withCtr .n96 (readyZero .n96).S 0xFFFFFFFF, ofs := 60 }

/-- The N96 engine at LIMIT (after line 6 of program P3). -/
def atEnd : State := { nearEnd with exh := true, ofs := 0 }

/-- `s` with one command presented. -/
def sending (cw : Word) (payload : List Byte) (s : State) : State := { s with inputs := [.command ⟨cw, payload⟩] }

/-- The response of a step or command. -/
def answer (o : Host.Outcome State Fault Refusal) : Option Response :=
  match o with
  | .next t => t.responses.getLast?
  | _ => none

/-- A view of the state after a step or command. -/
def after {α : Type} (o : Host.Outcome State Fault Refusal) (f : State → α) : Option α :=
  match o with
  | .next t => some (f t)
  | _ => none

/-! ### WellFormed: one ill-formed term for each check, and the longest that fits -/

theorem test_wf_init_key_too_long : (Instr.init (zeros 256) []).wf = false := by
  simp only [Instr.wf, zeros, List.length_replicate]; decide
theorem test_wf_init_nonce_too_long : (Instr.init [] (zeros 256)).wf = false := by
  simp only [Instr.wf, zeros, List.length_replicate]; decide
theorem test_wf_resync_nonce_too_long : (Instr.resync (zeros 256)).wf = false := by
  simp only [Instr.wf, zeros, List.length_replicate]; decide
theorem test_wf_combine_too_long (d : Dir) : (Instr.combine d (zeros 65536)).wf = false := by
  simp only [Instr.wf, zeros, List.length_replicate]; decide
theorem test_wf_longest_init : (Instr.init (zeros 255) (zeros 255)).wf = true := by
  simp only [Instr.wf, zeros, List.length_replicate]; decide
theorem test_wf_longest_combine (d : Dir) : (Instr.combine d (zeros 65535)).wf = true := by
  simp only [Instr.wf, zeros, List.length_replicate]; decide

/-! ### Decoding: words written out bit by bit from the formats of 30_encoding.md R47 -/

-- NLEN 8, KLEN 32, RSV 0, OPC 1 (V30-1)
theorem test_decode_init :
    decode ⟨0b00001000001000000000000000000001, counting 40⟩ =
      .ok (.init (counting 32) [0x20, 0x21, 0x22, 0x23, 0x24, 0x25, 0x26, 0x27]) := by decide +kernel
-- NLEN 12, RSV 0, OPC 2 (V30-4)
theorem test_decode_resync :
    decode ⟨0b00001100000000000000000000000010, counting 12⟩ = .ok (.resync (counting 12)) := by decide +kernel
-- OPC 3; the index of V42-8
theorem test_decode_seek :
    decode ⟨0b00000000000000000000000000000011, [0, 0, 0, 0, 1, 0, 0, 0]⟩ = .ok (.seek 0x100000000) := by decide +kernel
-- OPC 4
theorem test_decode_ksblk : decode ⟨0b00000000000000000000000000000100, []⟩ = .ok .ksblk := by decide +kernel
-- OPC 5; the index of V42-7
theorem test_decode_ksblkIdx :
    decode ⟨0b00000000000000000000000000000101, List.replicate 8 0xff⟩ = .ok (.ksblkIdx 0xFFFFFFFFFFFFFFFF) := by
  decide +kernel
-- LEN 3, RSV 0, DIR 1, OPC 6
theorem test_decode_combine :
    decode ⟨0b00000000000000110000000100000110, [0xff, 0x00, 0x55]⟩ = .ok (.combine .decrypt [0xff, 0x00, 0x55]) := by
  decide +kernel
-- OPC 7
theorem test_decode_status : decode ⟨0b00000000000000000000000000000111, []⟩ = .ok .status := by decide +kernel
-- V30-12, V30-13, V30-14, V30-15, V30-16
theorem test_decode_reserved_bits :
    decode ⟨0x00000101, []⟩ = .error .reservedBit ∧ decode ⟨0x00010002, []⟩ = .error .reservedBit ∧
      decode ⟨0x00000203, zeros 8⟩ = .error .reservedBit ∧ decode ⟨0x80000007, []⟩ = .error .reservedBit ∧
      decode ⟨0x00010206, [0]⟩ = .error .reservedBit := by decide +kernel
-- V30-10, V30-11
theorem test_decode_unassigned :
    decode ⟨0x00000000, []⟩ = .error .opcZero ∧ decode ⟨0x00000008, []⟩ = .error .unassignedOpc ∧
      decode ⟨0x000000FF, []⟩ = .error .unassignedOpc := by decide +kernel
-- PLEN column of 95_test_vectors.md section 2.4: V30-1, V30-2, V30-3, V30-9, V30-12, V30-14
theorem test_plen :
    [0x08200001, 0x0C200001, 0x08100001, 0xFFFF0006, 0x00000101, 0x00000203].map plen = [40, 44, 24, 65535, 0, 8] := by
  decide +kernel
-- 30_encoding.md R56, the command word column
theorem test_encode_words :
    (encode (.init (zeros 32) (zeros 12))).cw = 0x0C200001 ∧ (encode (.resync (zeros 8))).cw = 0x08000002 ∧
      encode (.seek 1) = ⟨0x00000003, [1, 0, 0, 0, 0, 0, 0, 0]⟩ ∧
      (encode (.combine .decrypt (zeros 14))).cw = 0x000E0106 := by decide +kernel
-- a table word: its payload is zeros
theorem test_decodeTableWord :
    decodeTableWord 32 0x08200001 = some (.init (zeros 32) (zeros 8)) ∧ decodeTableWord 32 3 = some (.seek 0) ∧
      decodeTableWord 32 0x00020106 = some (.combine .decrypt [0, 0]) ∧ decodeTableWord 32 0 = none := by decide +kernel
-- two commands on a byte transport (20_memory.md R36)
theorem test_decodeBytes :
    decodeBytes [0x06, 0x00, 0x01, 0x00, 0xab, 0x07, 0x00, 0x00, 0x00] =
      .ok (.combine .encrypt [0xab], [0x07, 0x00, 0x00, 0x00]) ∧
    decodeBytes [0x03, 0x00, 0x00, 0x00, 0x01] = .error .truncated := by decide +kernel

/-! ### quarter_round_unit, block_keystream_generator, little_endian_state_packer -/

-- V40-1, V40-3, V40-4, V40-5
theorem test_word_operations :
    add32 0xFFFFFFFF 1 = 0 ∧ add32 0xFFFFFFFF 0xFFFFFFFF = 0xFFFFFFFE ∧
      [7, 8, 12, 16].map (rotl32 0x80000001) = [0x000000C0, 0x00000180, 0x00001800, 0x00018000] ∧
      [16, 12, 8, 7].map (rotl32 0x12345678) = [0x56781234, 0x45678123, 0x34567812, 0x1A2B3C09] := by decide +kernel
-- V40-7, V40-9, V40-11
theorem test_quarterRound :
    quarterRound 0x11111111 0x01020304 0x9B8D6F43 0x01234567 = (0xEA2A92F4, 0xCB1CF8CE, 0x4581472E, 0x5881C4BB) ∧
      quarterRound 0xFFFFFFFF 0xFFFFFFFF 0xFFFFFFFF 0xFFFFFFFF = (0xF0000FFD, 0x88790878, 0x0110FDEF, 0x010FFDF0) ∧
      quarterRound 0 0 0 1 = (0x10000000, 0x80800808, 0x01010010, 0x01000010) := by decide +kernel

/-- The input state Z of 95_test_vectors.md section 2.2, by its words. -/
def Z : Words := #v[0x61707865, 0x3320646e, 0x79622d32, 0x6b206574, 0, 0, 0, 0, 0, 0, 0, 0, 0, 0, 0, 0]

-- V41-1
theorem test_columnRound :
    columnRound Z =
      #v[0xb7877feb, 0x16526ab4, 0xa0f85005, 0xb1d26bcb, 0x4a7d5c86, 0xfae0ea21, 0x66e11e68, 0xe3a851a6,
        0x5a83fd3f, 0xa0c7c792, 0xf75be0ef, 0x0b7556f4, 0xe21e9bcf, 0x3c599472, 0xca29678d,
        0xa600ebd4] := by decide +kernel
-- V41-2
theorem test_doubleRound :
    doubleRound Z =
      #v[0xe45fd249, 0x1bb820a6, 0xe31a88ea, 0xe667a9fe, 0x2a3bf673, 0x86bf4098, 0x460b500a, 0xfa169886,
        0x538dca0e, 0x0c439641, 0x00fa16bc, 0x8a08812a, 0x6bbf8b09, 0xc33013d6, 0xbb9f9849,
        0x87c62165] := by decide +kernel
-- V41-3
theorem test_permute :
    permute Z .r20 =
      #v[0x4c704011, 0x5d1d8d32, 0x6c08300e, 0xbd9d20df, 0xb819d2bd, 0x1aed8da0, 0xccef36a8, 0xc70d778b,
        0x7c5941da, 0x8d485751, 0x3fe02477, 0x374ad8b8, 0xf4b8436a, 0x1ca11815, 0x69b687c3,
        0x8665eeb2] := by decide +kernel
-- V41-6
theorem test_ks_20_rounds :
    ks Z .r20 =
      [0x76, 0xb8, 0xe0, 0xad, 0xa0, 0xf1, 0x3d, 0x90, 0x40, 0x5d, 0x6a, 0xe5, 0x53, 0x86, 0xbd, 0x28,
        0xbd, 0xd2, 0x19, 0xb8, 0xa0, 0x8d, 0xed, 0x1a, 0xa8, 0x36, 0xef, 0xcc, 0x8b, 0x77, 0x0d,
        0xc7, 0xda, 0x41, 0x59, 0x7c, 0x51, 0x57, 0x48, 0x8d, 0x77, 0x24, 0xe0, 0x3f, 0xb8, 0xd8,
        0x4a, 0x37, 0x6a, 0x43, 0xb8, 0xf4, 0x15, 0x18, 0xa1, 0x1c, 0xc3, 0x87, 0xb6, 0x69, 0xb2,
        0xee, 0x65, 0x86] := by decide +kernel
-- V41-8
theorem test_ks_12_rounds :
    ks Z .r12 =
      [0x9b, 0xf4, 0x9a, 0x6a, 0x07, 0x55, 0xf9, 0x53, 0x81, 0x1f, 0xce, 0x12, 0x5f, 0x26, 0x83, 0xd5,
        0x04, 0x29, 0xc3, 0xbb, 0x49, 0xe0, 0x74, 0x14, 0x7e, 0x00, 0x89, 0xa5, 0x2e, 0xae, 0x15,
        0x5f, 0x05, 0x64, 0xf8, 0x79, 0xd2, 0x7a, 0xe3, 0xc0, 0x2c, 0xe8, 0x28, 0x34, 0xac, 0xfa,
        0x8c, 0x79, 0x3a, 0x62, 0x9f, 0x2c, 0xa0, 0xde, 0x69, 0x19, 0x61, 0x0b, 0xe8, 0x2f, 0x41,
        0x13, 0x26, 0xbe] := by decide +kernel
-- V41-11
theorem test_ks_8_rounds_counter_1 :
    ks (withCtr .n96 Z 1) .r8 =
      [0xd2, 0xae, 0xfa, 0x0d, 0xea, 0xa5, 0xc1, 0x51, 0xbf, 0x0a, 0xdb, 0x6c, 0x01, 0xf2, 0xa5, 0xad,
        0xc0, 0xfd, 0x58, 0x12, 0x59, 0xf9, 0xa2, 0xaa, 0xdc, 0xf2, 0x0f, 0x8f, 0xd5, 0x66, 0xa2,
        0x6b, 0x50, 0x32, 0xec, 0x38, 0xbb, 0xc5, 0xda, 0x98, 0xee, 0x0c, 0x6f, 0x56, 0x8b, 0x87,
        0x2a, 0x65, 0xa0, 0x8a, 0xbf, 0x25, 0x1d, 0xeb, 0x21, 0xbb, 0x4b, 0x56, 0xe5, 0xd8, 0x82,
        0x1e, 0x68, 0xaa] := by decide +kernel
-- V41-12
theorem test_ks_n96_key_and_nonce :
    ks (inputState .n96 (counting 32) [0, 0, 0, 9, 0, 0, 0, 0x4a, 0, 0, 0, 0] 1) .r20 =
      [0x10, 0xf1, 0xe7, 0xe4, 0xd1, 0x3b, 0x59, 0x15, 0x50, 0x0f, 0xdd, 0x1f, 0xa3, 0x20, 0x71, 0xc4,
        0xc7, 0xd1, 0xf4, 0xc7, 0x33, 0xc0, 0x68, 0x03, 0x04, 0x22, 0xaa, 0x9a, 0xc3, 0xd4, 0x6c,
        0x4e, 0xd2, 0x82, 0x64, 0x46, 0x07, 0x9f, 0xaa, 0x09, 0x14, 0xc2, 0xd7, 0x05, 0xd9, 0x8b,
        0x02, 0xa2, 0xb5, 0x12, 0x9c, 0xd1, 0xde, 0x16, 0x4e, 0xb9, 0xcb, 0xd0, 0x83, 0xe8, 0xa2,
        0x50, 0x3c, 0x4e] := by decide +kernel
-- V42-1, V42-2, V42-3, V42-9
theorem test_packer :
    constWords = [0x61707865, 0x3320646e, 0x79622d32, 0x6b206574] ∧ leWord 0 1 2 3 = 0x03020100 ∧
      leBytes 0xADE0B876 = [0x76, 0xb8, 0xe0, 0xad] ∧ leU64 [0xff, 0xff, 0xff, 0xff, 0, 0, 0, 0] = 0xFFFFFFFF := by
  decide +kernel
-- V42-4, V42-5
theorem test_key_and_nonce_words :
    after (exec (.init (counting 32) (counting 8)) State.reset) (fun t => [t.S[4], t.S[11], t.S[14], t.S[15]]) =
      some [0x03020100, 0x1f1e1d1c, 0x03020100, 0x07060504] := by decide +kernel

/-! ### Commands -/

-- V43-1
theorem test_init :
    after (exec (.init (zeros 32) (zeros 8)) State.reset) (fun t => (t.S, t.initF, statusWord t)) =
        some (Z, true, 0x00000201) ∧
      answer (exec (.init (zeros 32) (zeros 8)) State.reset) = some ⟨0x00000000, []⟩ := by decide +kernel
-- V43-3 (the key length is reported first), V43-5
theorem test_init_errors :
    answer (exec (.init (zeros 16) (zeros 12)) State.reset) = some ⟨0x00000001, []⟩ ∧
      answer (exec (.init (zeros 32) (zeros 16)) State.reset) = some ⟨0x00000002, []⟩ := by decide +kernel
-- V44-25: RESYNC 00×12 at EXH = 1
theorem test_resync :
    answer (exec (.resync (zeros 12)) atEnd) = some ⟨0x00000000, []⟩ ∧
      after (exec (.resync (zeros 12)) atEnd) statusWord = some 0x00000601 := by decide +kernel
-- V43-7, V43-8
theorem test_resync_errors :
    answer (exec (.resync (zeros 8)) State.reset) = some ⟨0x00000004, []⟩ ∧
      answer (exec (.resync (zeros 8)) (readyZero .n96)) = some ⟨0x00000002, []⟩ := by decide +kernel
-- V44-11
theorem test_seek :
    after (exec (.seek 0xFFFFFFFFFFFFFFFF) (readyZero .n64)) (fun t => (t.S[12], t.S[13])) =
      some (0xFFFFFFFF, 0xFFFFFFFF) := by decide +kernel
-- V44-15
theorem test_seek_range :
    answer (exec (.seek 0x100000000) (readyZero .n96)) = some ⟨0x00000003, []⟩ ∧
      after (exec (.seek 0x100000000) (readyZero .n96)) statusWord = some 0x00000601 := by decide +kernel
-- V44-24: legal while EXH = 1
theorem test_ksblkIdx :
    answer (exec (.ksblkIdx 0xFFFFFFFF) atEnd) = some ⟨0x00400000,
      [0xac, 0xe4, 0xcd, 0x09, 0xe2, 0x94, 0xd1, 0x91, 0x2d, 0x4a, 0xd2, 0x05, 0xd0, 0x6f, 0x95, 0xd9,
        0xc2, 0xf2, 0xbf, 0xcf, 0x45, 0x3e, 0x87, 0x53, 0xf1, 0x28, 0x76, 0x5b, 0x62, 0x21, 0x5f,
        0x4d, 0x92, 0xc7, 0x4f, 0x2f, 0x62, 0x6c, 0x6a, 0x64, 0x0c, 0x0b, 0x12, 0x84, 0xd8, 0x39,
        0xec, 0x81, 0xf1, 0x69, 0x62, 0x81, 0xda, 0xfc, 0x3e, 0x68, 0x45, 0x93, 0x93, 0x70, 0x23,
        0xb5, 0x8b, 0x1d]⟩ := by
  decide +kernel
-- V44-16
theorem test_ksblkIdx_range :
    answer (exec (.ksblkIdx 0x100000000) (readyZero .n96)) = some ⟨0x00000003, []⟩ := by decide +kernel
-- P4, line 13: the counter has carried into S[13]
theorem test_ksblk :
    answer (exec .ksblk { ready .n64 (counting 32) (counting 8) with
      S := inputState .n64 (counting 32) (counting 8) 0x100000000 }) = some ⟨0x00400000,
      [0x2f, 0xca, 0xb2, 0xc0, 0x9a, 0x96, 0x05, 0x45, 0xc6, 0xf5, 0x7e, 0x92, 0x69, 0xeb, 0xc2, 0x2b,
        0x4e, 0xd1, 0x27, 0x82, 0xe6, 0x6d, 0xc4, 0xcb, 0x61, 0x25, 0x36, 0xf5, 0xcd, 0xbe, 0xd4,
        0xbc, 0xba, 0x16, 0xaf, 0x8a, 0x92, 0x14, 0x0b, 0xf4, 0xde, 0xd4, 0x80, 0x8a, 0xf8, 0xee,
        0xe8, 0x2b, 0xd0, 0xf1, 0x8f, 0xbb, 0x64, 0xf0, 0x73, 0xc2, 0xa5, 0x47, 0xbc, 0x23, 0x72,
        0x52, 0x8f, 0x36]⟩ := by
  decide +kernel
-- V44-22
theorem test_ksblk_exhausted : answer (exec .ksblk atEnd) = some ⟨0x00000003, []⟩ := by decide +kernel
-- V44-7: at position 70, COMBINE.D ff 00 55; STATUS after 0x00000225
theorem test_combine :
    answer (exec (.combine .decrypt [0xff, 0x00, 0x55])
        { readyZero .n64 with S := withCtr .n64 Z 1, ofs := 6 }) = some ⟨0x00030000, [0xc7, 0x7a, 0xcd]⟩ ∧
      after (exec (.combine .decrypt [0xff, 0x00, 0x55])
        { readyZero .n64 with S := withCtr .n64 Z 1, ofs := 6 }) statusWord = some 0x00000225 := by decide +kernel
-- V44-20, V44-21, V44-23: all or nothing, exactly to LIMIT, and no data at LIMIT
theorem test_combine_at_limit :
    answer (exec (.combine .encrypt (zeros 5)) nearEnd) = some ⟨0x00000003, []⟩ ∧
      answer (exec (.combine .encrypt (zeros 4)) nearEnd) = some ⟨0x00040000, [0x23, 0xb5, 0x8b, 0x1d]⟩ ∧
      after (exec (.combine .encrypt (zeros 4)) nearEnd) (fun t => (statusWord t, t.S[12])) =
        some (0x00000603, 0xFFFFFFFF) ∧
      answer (exec (.combine .encrypt []) atEnd) = some ⟨0x00000000, []⟩ := by decide +kernel
-- V44-6 (STATUS 0x00000219), and the example of 44_cmd_stream.md R129
theorem test_status :
    answer (exec .status { readyZero .n64 with ofs := 6 }) = some ⟨0x00040000, [0x19, 0x02, 0x00, 0x00]⟩ ∧
      answer (exec .status State.reset) = some ⟨0x00040000, [0x00, 0x02, 0x00, 0x00]⟩ := by decide +kernel

/-! ### Steps -/

-- V60-1, V60-3, P5 line 7 (the payload of an illegal word is discarded)
theorem test_step_errors :
    answer (step (sending 0x00000000 [] State.reset)) = some ⟨0x00000005, []⟩ ∧
      answer (step (sending 0x10000002 (zeros 16) State.reset)) = some ⟨0x00000004, []⟩ ∧
      answer (step (sending 0x00000203 (List.replicate 8 0xff) (readyZero .n64))) = some ⟨0x00000005, []⟩ := by
  decide +kernel
-- 70_reset_and_hazards.md R151: STATUS after a reset that interrupts a command, and no response
theorem test_step_reset :
    after (step { readyZero .n64 with ofs := 6, inputs := [.reset (some ⟨0x00010006, [0]⟩)] })
      (fun t => (statusWord t, t.responses)) = some (0x00000200, []) := by decide +kernel
-- a word given by its bits runs as the next step
theorem test_withFetchWord :
    answer (step (State.reset.withFetchWord 32 0x00000007)) = some ⟨0x00040000, [0x00, 0x02, 0x00, 0x00]⟩ ∧
      answer (step (State.reset.withFetchWord 32 0x08200001)) = some ⟨0x00000000, []⟩ := by decide +kernel
-- no step for a payload of the wrong length (30_encoding.md R46)
theorem test_step_fault : step (sending 0x00000007 [0] State.reset) = .fault .payloadLength := rfl

/-! ### Assembler (30_encoding.md R56) -/

-- the INIT row of R56, with a two-byte key and a one-byte nonce
theorem test_assemble_init :
    assemble ['I', 'N', 'I', 'T', ' ', '0', 'a', 'F', 'F', ',', ' ', '0', '1'] =
      some [⟨0x01020001, [0x0a, 0xff, 0x01]⟩] := by decide +kernel
theorem test_assemble_index :
    assemble ['K', 'S', 'B', 'L', 'K', '_', 'I', 'D', 'X', ' ', '0', 'x', '1', '0'] =
      some [⟨0x00000005, [16, 0, 0, 0, 0, 0, 0, 0]⟩] ∧
    assemble ['R', 'E', 'W', 'I', 'N', 'D'] = some [⟨0x00000003, zeros 8⟩] := by decide +kernel
theorem test_assemble_combine :
    assemble ['C', 'O', 'M', 'B', 'I', 'N', 'E', '.', 'D', ' ', 'a', 'b'] =
      some [⟨0x00010106, [0xab]⟩] ∧
    assemble ['K', 'E', 'Y', 'S', 'T', 'R', 'E', 'A', 'M', ' ', '2'] =
      some [⟨0x00020006, [0, 0]⟩] := by decide +kernel
-- P5 line 7, with one payload byte
theorem test_assemble_word :
    assemble ['.', 'w', 'o', 'r', 'd', ' ', '0', 'x', '2', '0', '3', ',', ' ', 'f', 'f'] =
      some [⟨0x00000203, [0xff]⟩] ∧
    assemble ['S', 'T', 'O', 'P'] = none := by decide +kernel

/-! ### Witnesses: for every statement with hypotheses, values that meet them all

A comment names the clauses where a statement has several. -/

theorem witness_DecodeInvertsEncode : (Instr.init (zeros 255) (zeros 255)).wf = true := by
  simp only [Instr.wf, zeros, List.length_replicate]; decide

theorem witness_EncodeInvertsDecode : decode ⟨0x00010106, [0xab]⟩ = .ok (.combine .decrypt [0xab]) := by decide +kernel

theorem witness_WordSelectsRowByMask : selectRow 0x00000101 = none := by decide +kernel

-- OPC 0x00, 0x04, 0x07 and 0xFF, around the opcodes with a payload
theorem witness_PayloadLengthReadsOpcAndLengthFields :
    ∀ opc ∈ [0x00#8, 0x04#8, 0x07#8, 0xFF#8],
      opc ≠ 0x01 ∧ opc ≠ 0x02 ∧ opc ≠ 0x03 ∧ opc ≠ 0x05 ∧ opc ≠ 0x06 := by decide

theorem witness_ByteStreamFramesCommands : (zeros 8).length = plen 0x00000203 := by decide +kernel

-- illegal by each case of the rule, and legal
theorem witness_IllegalWordsAnswerIllegalCommand :
    (sending 0x00010206 [0] State.reset).inputs = .command ⟨0x00010206, [0]⟩ :: [] ∧
      [(0 : Byte)].length = plen 0x00010206 ∧
      illegalWord 0x00010206 = true ∧ illegalWord 0x00000000 = true ∧ illegalWord 0x00000008 = true ∧
      [(0 : Byte)].length = plen 0x00010106 ∧ illegalWord 0x00010106 = false := by decide +kernel

theorem witness_StepRunsDecodedCommand :
    (sending 0x00000004 [] State.reset).inputs = .command ⟨0x00000004, []⟩ :: [] ∧
      decode ⟨0x00000004, []⟩ = .ok .ksblk := by decide +kernel

-- one byte too many, and one too few
theorem witness_StepFaultsExactlyOnWrongPayloadLength :
    (∃ c rest, (sending 0x00000007 [0] State.reset).inputs = .command c :: rest ∧ c.payload.length ≠ plen c.cw) ∧
      ∃ c rest, (sending 0x00000003 (zeros 7) State.reset).inputs = .command c :: rest ∧ c.payload.length ≠ plen c.cw :=
  ⟨⟨_, _, rfl, by decide +kernel⟩, _, _, rfl, by decide +kernel⟩

theorem witness_IdleStepKeepsState : State.reset.inputs = [] := rfl

theorem witness_ResetClearsFlagsAndAbandonsCommand :
    ({ atEnd with inputs := [.reset (some ⟨0x00000004, []⟩)] } : State).inputs =
      .reset (some ⟨0x00000004, []⟩) :: [] := rfl

theorem witness_ConstructionAdmitsThreeRoundCounts : Config.construct 12 .n96 = some ⟨.r12, .n96⟩ := by decide

theorem witness_InitLoadsKeyAndNonce :
    (counting 32).length = 32 ∧ (counting 12).length = (State.powerOn ⟨.r8, .n96⟩).cfg.nonceMode.nonceLen := by decide

-- a key one byte short; a nonce of the other mode's length
theorem witness_InitRejectsWrongLengths :
    (zeros 31).length ≠ 32 ∧ (zeros 32).length = 32 ∧
      (zeros 12).length ≠ (match State.reset.cfg.nonceMode with | .n64 => 8 | .n96 => 12) := by decide

theorem witness_ResyncReplacesNonceAndRestarts :
    atEnd.initF = true ∧ (counting 12).length = atEnd.cfg.nonceMode.nonceLen := by decide

-- before INIT; after INIT with the other mode's length
theorem witness_ResyncRejects :
    State.reset.initF = false ∧ (readyZero .n96).initF = true ∧
      (zeros 8).length ≠ (readyZero .n96).cfg.nonceMode.nonceLen := by decide

-- the first stream runs COMBINE and a failing INIT before the RESYNC
theorem witness_ResyncEqualsFreshInit :
    (zeros 32).length = 32 ∧ (zeros 8).length = State.reset.cfg.nonceMode.nonceLen ∧
      (counting 8).length = State.reset.cfg.nonceMode.nonceLen ∧
      ∀ k n, Instr.init k n ∈ [Instr.combine .encrypt [1], Instr.init [] []] →
        k.length ≠ 32 ∨ n.length ≠ State.reset.cfg.nonceMode.nonceLen := by
  refine ⟨by decide, by decide, by decide, ?_⟩
  intro k n h
  simp only [List.mem_cons, List.not_mem_nil, or_false, reduceCtorEq, false_or, Instr.init.injEq] at h
  exact .inl (by rw [h.1]; decide)

theorem witness_RepeatedCommandLeavesSameState :
    (∀ dir data, Instr.seek 5 ≠ .combine dir data) ∧
      ∃ t u, exec (.seek 5) (readyZero .n64) = .next t ∧ exec (.seek 5) t = .next u :=
  ⟨by simp, _, _, rfl, rfl⟩

-- SEEK to MAXIDX in both modes
theorem witness_SeekSetsCounter :
    (readyZero .n96).initF = true ∧ (0xFFFFFFFF : BitVec 64).toNat ≤ (readyZero .n96).cfg.nonceMode.maxIdx ∧
      (0xFFFFFFFFFFFFFFFF : BitVec 64).toNat ≤ (readyZero .n64).cfg.nonceMode.maxIdx := by decide +kernel

-- each clause at its boundary: 2^32, 2^32 - 1, 2^64 - 1
theorem witness_SeekRange :
    (readyZero .n96).initF = true ∧ (readyZero .n96).cfg.nonceMode = .n96 ∧ (readyZero .n64).initF = true ∧
      (readyZero .n64).cfg.nonceMode = .n64 ∧
      2 ^ 32 ≤ (0x100000000 : BitVec 64).toNat ∧ (0xFFFFFFFF : BitVec 64).toNat < 2 ^ 32 := by decide +kernel

theorem witness_KsblkIdxReturnsBlock :
    atEnd.initF = true ∧ (0xFFFFFFFF : BitVec 64).toNat ≤ atEnd.cfg.nonceMode.maxIdx := by decide +kernel

-- both clauses at their boundary
theorem witness_KsblkIdxRejectsBeyondMaxIdx :
    atEnd.initF = true ∧ (atEnd.cfg.nonceMode = .n96 ∧ 2 ^ 32 ≤ (0x100000000 : BitVec 64).toNat) ∧
      (atEnd.cfg.nonceMode = .n64 ∨ (0xFFFFFFFF : BitVec 64).toNat < 2 ^ 32) ∧
      ((readyZero .n64).cfg.nonceMode = .n64 ∨ (0x100000000 : BitVec 64).toNat < 2 ^ 32) := by decide +kernel

-- two states that differ in counter words, OFS and EXH
theorem witness_KeystreamIgnoresCursor :
    (readyZero .n96).cfg = atEnd.cfg ∧ (readyZero .n96).initF = atEnd.initF ∧ (readyZero .n96).S ≠ atEnd.S ∧
      SameOffCounter (readyZero .n96).cfg.nonceMode (readyZero .n96).S atEnd.S := by
  refine ⟨by decide, by decide, by decide +kernel, ?_⟩
  intro i h hc
  refine (withCtr_getElem .n96 (readyZero .n96).S 0xFFFFFFFF i h ?_ (by simp)).symm
  rintro rfl
  exact absurd hc (by decide)

theorem witness_KsblkReturnsCurrentBlock : nearEnd.initF = true ∧ nearEnd.exh = false := by decide

theorem witness_KsblkRejectsWhenExhausted : atEnd.initF = true ∧ atEnd.exh = true := by decide

-- exactly to LIMIT
theorem witness_CombineXorsKeystream :
    nearEnd.initF = true ∧ nearEnd.pos + (zeros 4).length ≤ nearEnd.cfg.nonceMode.limit ∧
      (zeros 4).length < 65536 := by decide +kernel

-- one byte past LIMIT
theorem witness_CombineRejectsPastLimit :
    nearEnd.initF = true ∧
      nearEnd.pos + (zeros 5).length > (match nearEnd.cfg.nonceMode with | .n64 => 2 ^ 70 | .n96 => 2 ^ 38) := by
  decide +kernel

-- before LIMIT, at LIMIT, and under N64 across a carry into S[13]
theorem witness_CombineAdvancesCounter :
    nearEnd.initF = true ∧ nearEnd.pos + (zeros 3).length < nearEnd.cfg.nonceMode.limit ∧
      nearEnd.pos + (zeros 4).length = nearEnd.cfg.nonceMode.limit ∧
      ({ readyZero .n64 with S := withCtr .n64 Z 0xFFFFFFFF } : State).pos + (zeros 64).length <
        (readyZero .n64).cfg.nonceMode.limit ∧ (readyZero .n64).cfg.nonceMode = .n64 := by decide +kernel

-- at EXH = 1, and before INIT
theorem witness_CombineOfNothing :
    ExhaustedAtEnd atEnd ∧ atEnd.initF = true ∧ atEnd.exh = true ∧ ExhaustedAtEnd State.reset ∧
      State.reset.initF = false :=
  ⟨fun _ => by decide +kernel, rfl, rfl, fun h => absurd h (by decide), rfl⟩

theorem witness_CombineIsItsOwnInverse :
    nearEnd.initF = true ∧ nearEnd.exh = false ∧ nearEnd.pos + (zeros 4).length ≤ nearEnd.cfg.nonceMode.limit ∧
      (zeros 4).length < 65536 ∧ (zeros 60).length = nearEnd.pos % 64 := by decide +kernel

-- within LIMIT (exactly to it, with an empty piece), and past it
theorem witness_ChunkingIndependence :
    nearEnd.initF = true ∧ ExhaustedAtEnd nearEnd ∧ (∀ d ∈ [zeros 1, [], zeros 3], d.length < 65536) ∧
      nearEnd.pos + [zeros 1, [], zeros 3].flatten.length ≤ nearEnd.cfg.nonceMode.limit ∧
      [zeros 1, [], zeros 3].flatten.length < 65536 ∧
      nearEnd.pos + [zeros 1, zeros 4].flatten.length > nearEnd.cfg.nonceMode.limit :=
  ⟨rfl, fun h => absurd h (by decide), by decide, by decide +kernel, by decide, by decide +kernel⟩

-- before the SEEK: a COMBINE, a failing INIT and a failing RESYNC
theorem witness_SeekConsistency :
    (counting 32).length = 32 ∧ (counting 8).length = State.reset.cfg.nonceMode.nonceLen ∧
      (1 : BitVec 64).toNat ≤ State.reset.cfg.nonceMode.maxIdx ∧ (∀ d ∈ [zeros 10, zeros 54], d.length < 65536) ∧
      [zeros 10, zeros 54].flatten.length = 64 * (1 : BitVec 64).toNat ∧
      (∀ k n, Instr.init k n ∈ [Instr.combine .encrypt [1], .init [] [], .resync []] →
        k.length ≠ 32 ∨ n.length ≠ State.reset.cfg.nonceMode.nonceLen) ∧
      ∀ n, Instr.resync n ∈ [Instr.combine .encrypt [1], .init [] [], .resync []] →
        n.length ≠ State.reset.cfg.nonceMode.nonceLen := by
  refine ⟨by decide, by decide, by decide +kernel, by decide, by decide +kernel, ?_, ?_⟩
  · intro k n h
    simp only [List.mem_cons, List.not_mem_nil, or_false, reduceCtorEq, false_or, Instr.init.injEq] at h
    exact .inl (by rw [h.1]; decide)
  · intro n h
    simp only [List.mem_cons, List.not_mem_nil, or_false, reduceCtorEq, false_or, Instr.resync.injEq] at h
    rw [h]; decide

-- with n = 64 at OFS = 0, EXH = 0 and a counter below MAXIDX
theorem witness_KeystreamPseudoReturnsKeystream :
    (readyZero .n64).initF = true ∧ (readyZero .n64).pos + 64 ≤ (readyZero .n64).cfg.nonceMode.limit ∧
      (readyZero .n64).ofs = 0 ∧ (readyZero .n64).exh = false ∧
      (readyZero .n64).ctr < (readyZero .n64).cfg.nonceMode.maxIdx := by decide +kernel

-- both clauses
theorem witness_CommandsBeforeInit :
    State.reset.initF = false ∧ (∀ k n, Instr.ksblk ≠ .init k n) ∧ Instr.ksblk ≠ .status ∧
      ((∃ k n, Instr.init [] [] = .init k n) ∨ Instr.init [] [] = .status) :=
  ⟨rfl, by simp, by simp, .inl ⟨[], [], rfl⟩⟩

theorem witness_ResultFollowsPriority :
    (sending 0x10100001 (zeros 32) State.reset).inputs = .command ⟨0x10100001, zeros 32⟩ :: [] ∧
      (zeros 32).length = plen 0x10100001 := by decide +kernel

-- an error, and a success
theorem witness_ErrorChangesNothing :
    (∃ t, step (sending 0x00000004 [] atEnd) = .next t ∧ t.responses = [⟨0x00000003, []⟩]) ∧
      ∃ t, step (sending 0x00000007 [] atEnd) = .next t := ⟨⟨_, rfl, rfl⟩, ⟨_, rfl⟩⟩

theorem witness_OneResponsePerCommand :
    (sending 0x00040006 (zeros 4) nearEnd).inputs = .command ⟨0x00040006, zeros 4⟩ :: [] ∧
      (zeros 4).length = plen 0x00040006 := by decide +kernel

theorem witness_RetryGivesSameError :
    ∃ t, step { State.reset with inputs := [.command ⟨0x00000004, []⟩, .command ⟨0x00000004, []⟩] } = .next t ∧
      t.responses = State.reset.responses ++ [⟨0x00000004, []⟩] ∧
      (⟨0x00000004, []⟩ : Response).resultField ≠ 0x00 := ⟨_, rfl, rfl, by decide⟩

theorem witness_StepKeepsInvariant :
    Inv (sending 0x00000007 [] State.reset) ∧ ∃ t, step (sending 0x00000007 [] State.reset) = .next t :=
  ⟨⟨fun h => absurd h (by decide), fun h => absurd h (by decide), fun _ => ⟨rfl, rfl⟩⟩, _, rfl⟩

-- a SEEK that changes S[12]
theorem witness_WordsChangeOnlyInTheirCommands :
    ∃ t, step (sending 0x00000003 [1, 0, 0, 0, 0, 0, 0, 0] (readyZero .n96)) = .next t ∧
      t.S[12] ≠ (sending 0x00000003 [1, 0, 0, 0, 0, 0, 0, 0] (readyZero .n96)).S[12] :=
  ⟨_, rfl, by decide +kernel⟩

theorem witness_ConfigurationNeverChanges :
    ∃ t, step { atEnd with inputs := [.reset none] } = .next t := ⟨_, rfl⟩

-- cleared by a reset, set by an INIT
theorem witness_InitFlagSetByInitClearedByReset :
    (∃ t, step { atEnd with inputs := [.reset none] } = .next t ∧ atEnd.initF = true ∧ t.initF = false) ∧
      ∃ t, step (sending 0x08200001 (zeros 40) State.reset) = .next t ∧ State.reset.initF = false ∧
        t.initF = true :=
  ⟨⟨_, rfl, rfl, rfl⟩, _, rfl, rfl, by decide +kernel⟩

theorem witness_ExhaustedUntilRestarted :
    atEnd.initF = true ∧ atEnd.exh = true ∧ ExhaustedAtEnd atEnd ∧ [(0 : Byte)] ≠ [] ∧
      ∀ i ∈ [Instr.ksblk, .combine .encrypt [0], .status],
        (∀ k n, i ≠ .init k n) ∧ (∀ n, i ≠ .resync n) ∧ ∀ idx, i ≠ .seek idx :=
  ⟨rfl, rfl, fun _ => by decide +kernel, by decide, by simp⟩

theorem witness_OnlyCombineAdvancesCursor :
    (∃ t, step (sending 0x00010006 [0] nearEnd) = .next t) ∧ (0x00010006 : Word).extractLsb' 0 8 ≠ 0x01 ∧
      (0x00010006 : Word).extractLsb' 0 8 ≠ 0x02 ∧ (0x00010006 : Word).extractLsb' 0 8 ≠ 0x03 := by
  refine ⟨?_, by decide, by decide, by decide⟩
  exact ⟨_, exec_combine_ok (s := nearEnd) (dir := .encrypt) (data := [0]) rfl (by decide +kernel)⟩

-- k = 0 and k = 3, the ends of its range
theorem witness_DutifulHostIsServed :
    let events := [HostEvent.command ⟨0x00000203, zeros 8⟩, .reset none, .command ⟨0x00000007, []⟩]
    (∀ e ∈ ({ State.reset with inputs := events } : State).inputs, e.keepsDuty = true) ∧
      0 ≤ events.length ∧ 3 ≤ events.length := by decide +kernel

theorem witness_UnspecifiedWordsNeverObserved : State.reset.initF = false := rfl

theorem witness_RotationMovesEveryBit : 1 ≤ 31 ∧ 31 ≤ 31 ∧ 31 < 32 := by decide

-- an order other than the listed one, for both rounds
theorem witness_QuarterRoundsOfARoundCommute :
    columnQuads.reverse.Perm [⟨0, 4, 8, 12⟩, ⟨1, 5, 9, 13⟩, ⟨2, 6, 10, 14⟩, ⟨3, 7, 11, 15⟩] ∧
      diagonalQuads.reverse.Perm [⟨0, 5, 10, 15⟩, ⟨1, 6, 11, 12⟩, ⟨2, 7, 8, 13⟩, ⟨3, 4, 9, 14⟩] :=
  ⟨List.reverse_perm _, List.reverse_perm _⟩

theorem witness_KeystreamBlockBytes : 15 < 16 ∧ 3 < 4 := by decide

theorem witness_InputStateByteView :
    (counting 32).length = 32 ∧ (counting 12).length = NonceMode.n96.nonceLen ∧ 0xFFFFFFFF ≤ NonceMode.n96.maxIdx ∧
      (counting 8).length = NonceMode.n64.nonceLen ∧ 0xFFFFFFFFFFFFFFFF ≤ NonceMode.n64.maxIdx := by decide +kernel

-- the last key word and the last nonce word
theorem witness_KeyAndNonceBytePlacement :
    (counting 32).length = 32 ∧ (counting 8).length = State.reset.cfg.nonceMode.nonceLen ∧ 7 < 8 ∧ 3 < 4 ∧
      State.reset.cfg.nonceMode.nonceBase + 1 < 16 := by decide


end Sys2Proof.Machine.Tests
end

section
/-! PROOFS. The scope statements (00_scope.md): which round counts an instance can be built for, and what a step does
with a presented command. -/

namespace Sys2Proof

/-! ### Construction -/

/-- `Rounds` has a member for each admitted count and no other (00_scope.md R6). -/
theorem Rounds.exists_count_eq_iff (n : Nat) : (∃ r : Rounds, r.count = n) ↔ n = 8 ∨ n = 12 ∨ n = 20 := by
  constructor
  · rintro ⟨r, rfl⟩
    cases r <;> simp [Rounds.count]
  · rintro (rfl | rfl | rfl)
    · exact ⟨.r8, rfl⟩
    · exact ⟨.r12, rfl⟩
    · exact ⟨.r20, rfl⟩

/-- Construction inverts `Rounds.count`. -/
@[simp] theorem Config.construct_count (r : Rounds) (m : NonceMode) : Config.construct r.count m = some ⟨r, m⟩ := by
  cases r <;> rfl

theorem Config.construct_eq_none_iff (n : Nat) (m : NonceMode) :
    Config.construct n m = none ↔ ¬ ∃ r : Rounds, r.count = n := by
  constructor
  · rintro h ⟨r, rfl⟩
    simp at h
  · intro h
    obtain ⟨h8, h12, h20⟩ : n ≠ 8 ∧ n ≠ 12 ∧ n ≠ 20 := by simpa [Rounds.exists_count_eq_iff] using h
    simp [Config.construct, h8, h12, h20]

/-- The one configuration construction can build is the one with the given round count and nonce mode. -/
theorem Config.construct_eq_some_iff (n : Nat) (m : NonceMode) (cfg : Config) :
    Config.construct n m = some cfg ↔ cfg.rounds.count = n ∧ cfg.nonceMode = m := by
  constructor
  · intro h
    by_cases hr : ∃ r : Rounds, r.count = n
    · obtain ⟨r, rfl⟩ := hr
      obtain rfl : (⟨r, m⟩ : Config) = cfg := by simpa using h
      exact ⟨rfl, rfl⟩
    · simp [(Config.construct_eq_none_iff n m).2 hr] at h
  · rintro ⟨rfl, rfl⟩
    exact Config.construct_count cfg.rounds cfg.nonceMode

/-- Settles O14: construction is refused exactly outside the range of `Rounds.count`, and what it builds is read back
as its arguments. -/
theorem constructionAdmitsThreeRoundCounts : Obligations.ConstructionAdmitsThreeRoundCounts := by
  intro n m
  refine ⟨?_, fun cfg => (Config.construct_eq_some_iff n m cfg).1⟩
  rw [Config.construct_eq_none_iff, Rounds.exists_count_eq_iff]
  simp only [not_or, ne_eq]

end Sys2Proof

namespace Sys2Proof.Machine

/-! ### A step on a presented command -/

/-- A command that decodes is carried out at the state that has accepted the event (43_cmd_setup.md R99). -/
theorem step_of_decode_ok {s : State} {c : Command} {rest : List HostEvent} {i : Instr}
    (hin : s.inputs = .command c :: rest) (hd : decode c = .ok i) : step s = exec i { s with inputs := rest } := by
  simp only [step, hin, hd]

/-- Settles O9: the step on a command event is `decode`, then `exec`. -/
theorem stepRunsDecodedCommand : Obligations.StepRunsDecodedCommand :=
  fun _ _ _ _ => step_of_decode_ok

end Sys2Proof.Machine
end

section
/-! PROOFS. Rules about the shared operations (10_state.md R23; 30_encoding.md R48, R53): what a decoded command says of
its word, which words of S each loading operation writes, and what a step on a presented command can do. -/

namespace Sys2Proof

/-! ### What a decoded command says of its word -/

/-- OPC of the row that each command belongs to (30_encoding.md R48). -/
def Instr.opc : Instr → Byte
  | .init _ _ => 0x01
  | .resync _ => 0x02
  | .seek _ => 0x03
  | .ksblk => 0x04
  | .ksblkIdx _ => 0x05
  | .combine _ _ => 0x06
  | .status => 0x07

/-- A field that lies inside the mask of a row's selection rule is the pattern's field (30_encoding.md R48). -/
theorem extractLsb'_of_mask {cw m p : Word} (h : cw &&& m = p) (start len : Nat)
    (hm : m.extractLsb' start len = BitVec.allOnes len) : cw.extractLsb' start len = p.extractLsb' start len := by
  rw [← h, BitVec.extractLsb'_and, hm, BitVec.and_allOnes]

theorem exists_row_of_selectRow {cw : Word} {op : Opcode} (h : selectRow cw = some op) :
    ∃ r ∈ opcodeTable, r.op = op ∧ cw &&& r.mask = r.pattern := by
  obtain ⟨r, hr, hop⟩ := Option.map_eq_some_iff.1 h
  exact ⟨r, List.mem_of_find?_eq_some hr, hop, by simpa [OpRow.selects] using List.find?_some hr⟩

theorem decode_eq_ok_iff {c : Command} {i : Instr} :
    decode c = .ok i ↔
      c.payload.length = plen c.cw ∧ ∃ op, selectRow c.cw = some op ∧ operandsOf c.cw c.payload op = i := by
  by_cases hp : c.payload.length = plen c.cw
  · cases hr : selectRow c.cw <;> simp [decode, hp, hr]
  · simp [decode, hp]

/-- Each row's mask covers OPC, and its pattern has there the OPC of the commands it decodes to. -/
theorem opcField_of_row {r : OpRow} (hr : r ∈ opcodeTable) (cw : Word) (payload : List Byte) :
    r.mask.extractLsb' 0 8 = BitVec.allOnes 8 ∧ r.pattern.extractLsb' 0 8 = (operandsOf cw payload r.op).opc := by
  simp only [opcodeTable, List.mem_cons, List.not_mem_nil, or_false] at hr
  obtain rfl | rfl | rfl | rfl | rfl | rfl | rfl := hr <;> exact ⟨rfl, rfl⟩

theorem opcField_of_decode {c : Command} {i : Instr} (h : decode c = .ok i) : opcField c.cw = i.opc := by
  obtain ⟨-, op, hop, rfl⟩ := decode_eq_ok_iff.1 h
  obtain ⟨r, hr, rfl, hcw⟩ := exists_row_of_selectRow hop
  obtain ⟨hm, hp⟩ := opcField_of_row hr c.cw c.payload
  exact (extractLsb'_of_mask hcw 0 8 hm).trans hp

/-- A word that decodes to INIT has its reserved bits clear (30_encoding.md R48, R49). -/
theorem low_bits_of_decode_init {c : Command} {key nonce : List Byte} (h : decode c = .ok (.init key nonce)) :
    c.cw.extractLsb' 0 16 = 0x0001 := by
  obtain ⟨-, op, hop, hi⟩ := decode_eq_ok_iff.1 h
  obtain ⟨r, hr, rfl, hcw⟩ := exists_row_of_selectRow hop
  simp only [opcodeTable, List.mem_cons, List.not_mem_nil, or_false] at hr
  obtain rfl | rfl | rfl | rfl | rfl | rfl | rfl := hr
  · exact extractLsb'_of_mask hcw 0 16 rfl
  all_goals contradiction

/-- LEN is the number of a COMBINE's data bytes (30_encoding.md R52, R53). -/
theorem length_of_decode_combine {c : Command} {dir : Dir} {data : List Byte}
    (h : decode c = .ok (.combine dir data)) : data.length = (lenField c.cw).toNat := by
  have hopc : opcField c.cw = 0x06 := opcField_of_decode h
  obtain ⟨hp, op, -, hi⟩ := decode_eq_ok_iff.1 h
  have hpl : plen c.cw = (lenField c.cw).toNat := by simp [plen, hopc]
  cases op <;> simp [operandsOf] at hi
  obtain ⟨-, rfl⟩ := hi
  simp [hp, hpl]

end Sys2Proof

namespace Sys2Proof.Machine

/-! ### Which words the loading operations write -/

theorem counterWord_eq_false_of_lt (m : NonceMode) {i : Nat} (h : i < 12) : counterWord m i = false := by
  cases m <;> simp [counterWord] <;> omega

theorem withCtr_getElem_of_not_counterWord {m : NonceMode} {i : Nat} (hc : counterWord m i = false) (S : Words)
    (idx : Nat) (h : i < 16) : (withCtr m S idx)[i] = S[i] := by
  cases m <;> simp [counterWord] at hc
  · exact withCtr_getElem .n64 S idx i h hc.1 fun _ => hc.2
  · exact withCtr_getElem .n96 S idx i h hc nofun

/-- The nonce words begin after the key words (10_state.md R21). -/
theorem nonceBase_ge (m : NonceMode) : 12 ≤ m.nonceBase := by cases m <;> decide

/-- The words that INIT has loaded before it restarts the stream: constants, key and nonce, each in its place
(43_cmd_setup.md R101; 42_le_packer.md R88, R91, R92). -/
theorem loaded_words {m : NonceMode} {key nonce : List Byte} (hk : key.length = 32) (hn : nonce.length = m.nonceLen)
    (S : Words) {i : Nat} (hi : i < 16) :
    (putWords (packWords nonce) m.nonceBase (putWords (packWords key) 4 (putWords constWords 0 S)))[i] =
      if m.nonceBase ≤ i then wordAt nonce (i - m.nonceBase)
      else if 12 ≤ i then S[i]
      else if 4 ≤ i then wordAt key (i - 4)
      else constWords.getD i 0 := by
  have hbase := nonceBase_ge m
  have hquad : nonce.length = 4 * (16 - m.nonceBase) := by cases m <;> exact hn
  rw [putWords_packWords_getElem nonce _ _ hquad, putWords_packWords_getElem key 4 8 hk, putWords_getElem]
  have hconst : constWords.length = 4 := by decide
  by_cases h1 : m.nonceBase ≤ i
  · rw [if_pos (by omega), if_pos h1]; rfl
  · rw [if_neg (by omega), if_neg h1]
    by_cases h2 : 12 ≤ i
    · rw [if_neg (by omega), if_pos h2, dif_neg (by omega)]
    · rw [if_neg h2]
      by_cases h3 : 4 ≤ i
      · rw [if_pos (by omega), if_pos h3]; rfl
      · rw [if_neg (by omega), if_neg h3, dif_pos (by omega), List.getD_eq_getElem]; rfl

/-- INIT's writes give the input state of block 0, whatever S held (43_cmd_setup.md R101; 41_block_function.md R80). -/
theorem initialised_S {key nonce : List Byte} {s : State} (hk : key.length = 32)
    (hn : nonce.length = s.cfg.nonceMode.nonceLen) :
    (resetStream (loadNonce nonce (loadKey key (loadConstants s)))).S = inputState s.cfg.nonceMode key nonce 0 := by
  have hconst : constWords = [0x61707865, 0x3320646E, 0x79622D32, 0x6B206574] := by decide
  have hword := fun i hi => loaded_words (i := i) hk hn s.S hi
  simp only [resetStream_S, loadNonce_S, loadKey_S, loadConstants_S, loadNonce_cfg, loadKey_cfg, loadConstants_cfg]
  generalize putWords _ _ _ = loaded at hword ⊢
  rw [hconst] at hword
  ext i hi : 1
  cases hm : s.cfg.nonceMode <;> rw [hm] at hword <;>
    interval_cases i <;> simp [withCtr, hword, NonceMode.nonceBase, inputState]

/-- INIT's effect, with the words it writes as the rule's own formula has them. -/
theorem exec_init_inputState {key nonce : List Byte} {s : State} (hk : key.length = 32)
    (hn : nonce.length = s.cfg.nonceMode.nonceLen) :
    exec (.init key nonce) s =
      .next (respond .ok []
        { s with S := inputState s.cfg.nonceMode key nonce 0, initF := true, exh := false, ofs := 0 }) := by
  simp [exec_init_ok hk hn, initialised_S hk hn, -resetStream_S]

theorem inputState_constants (m : NonceMode) (key nonce : List Byte) (idx : Nat) :
    (inputState m key nonce idx)[0] = 0x61707865 ∧ (inputState m key nonce idx)[1] = 0x3320646E ∧
      (inputState m key nonce idx)[2] = 0x79622D32 ∧ (inputState m key nonce idx)[3] = 0x6B206574 := by
  cases m <;> exact ⟨rfl, rfl, rfl, rfl⟩

/-! ### A step, by the event that is presented -/

theorem step_of_no_input {s : State} (hin : s.inputs = []) : step s = .next s := by
  simp only [step, hin, idle_eq]

theorem step_of_reset {s : State} {x : Option Command} {rest : List HostEvent} (hin : s.inputs = .reset x :: rest) :
    step s = .next (hardwareReset { s with inputs := rest }) := by
  simp only [step, hin]

theorem step_of_decode_error {s : State} {c : Command} {rest : List HostEvent} {r : Reject}
    (hin : s.inputs = .command c :: rest) (hd : decode c = .error r) :
    step s = rejectCommand r { s with inputs := rest } := by
  simp only [step, hin, hd]

/-- A step on a command answers an error and writes nothing else, or the command decodes and takes effect
(43_cmd_setup.md R99; 60_exceptions.md R140). -/
theorem step_command_cases {s t : State} {c : Command} {rest : List HostEvent} (hin : s.inputs = .command c :: rest)
    (h : step s = .next t) :
    (∃ r, r ≠ .ok ∧ t = fail r { s with inputs := rest }) ∨
      ∃ i u data, decode c = .ok i ∧ exec i { s with inputs := rest } = .next t ∧
        Effect i { s with inputs := rest } u ∧ t = respond .ok data u := by
  obtain ⟨hnil, -⟩ | ⟨x, rest', hres, -⟩ | ⟨c', rest', hcmd, -, hcase⟩ := step_cases h
  · simp [hnil] at hin
  · simp [hres] at hin
  · obtain ⟨rfl, rfl⟩ : c' = c ∧ rest' = rest := by simpa [hcmd] using hin
    obtain ⟨-, rfl⟩ | ⟨i, hd, hx⟩ := hcase
    · exact .inl ⟨.illegalCommand, by decide, rfl⟩
    · obtain ⟨r, hr, hf⟩ | ⟨u, data, hu, ho⟩ := exec_cases i { s with inputs := rest' }
      · exact .inl ⟨r, hr, by simpa [hf] using hx.symm⟩
      · exact .inr ⟨i, u, data, hd, hx, hu, by simpa [ho] using hx.symm⟩

end Sys2Proof.Machine
end

section
/-! PROOFS. The invariant of the cipher state and the cursor (10_state.md R23, R26): it holds after power-on and every
step keeps it. -/

namespace Sys2Proof.Machine

/-! ### The invariant reads neither port -/

@[simp] theorem inv_respond (r : Result) (data : List Byte) (s : State) : Inv (respond r data s) ↔ Inv s := Iff.rfl
@[simp] theorem inv_fail (r : Result) (s : State) : Inv (fail r s) ↔ Inv s := Iff.rfl
@[simp] theorem inv_inputs (s : State) (es : List HostEvent) : Inv { s with inputs := es } ↔ Inv s := Iff.rfl

/-! ### What keeps each part of it -/

theorem exhaustedAtEnd_of_not_exh {s : State} (h : s.exh = false) : ExhaustedAtEnd s := by simp [ExhaustedAtEnd, h]

theorem freshBeforeInit_of_initF {s : State} (h : s.initF = true) : FreshBeforeInit s := by simp [FreshBeforeInit, h]

theorem ConstantsInPlace.of_words {s u : State} (hs : ConstantsInPlace s) (hi : s.initF = true)
    (h : ∀ (i : Nat) (hi : i < 4), u.S[i] = s.S[i]) : ConstantsInPlace u := by
  intro _
  simpa [h] using hs hi

/-- Moving the cursor to its end sets EXH, at the last block and offset 0 (10_state.md R26, R27). -/
theorem exhaustedAtEnd_setPos (p : Nat) (s : State) : ExhaustedAtEnd (setPos p s) := by
  intro hx
  obtain rfl : p = s.cfg.nonceMode.limit := by simpa [setPos_exh] using hx
  simp [State.ctr, setPos_S, setPos_ofs, ctrOf_withCtr]

/-! ### What a command writes -/

/-- Each kind of word is written by its own commands only: constants and key by INIT, nonce words by RESYNC too, counter
words by each command that moves the cursor (10_state.md R23). -/
theorem Effect.opc_of_word_ne {i : Instr} {s u : State} (h : Effect i s u) {k : Nat} (hk : k < 16)
    (hne : u.S[k] ≠ s.S[k]) :
    i.opc = 0x01 ∨ (12 ≤ k ∧ i.opc = 0x02) ∨
      (counterWord s.cfg.nonceMode k = true ∧ (i.opc = 0x03 ∨ i.opc = 0x06)) := by
  cases h with
  | init => exact .inl rfl
  | resync =>
    refine .inr (.inl ⟨?_, rfl⟩)
    by_contra hk12
    have hctr := counterWord_eq_false_of_lt s.cfg.nonceMode (Nat.lt_of_not_le hk12)
    have hnonce : ¬ s.cfg.nonceMode.nonceBase ≤ k := fun h => hk12 ((nonceBase_ge _).trans h)
    exact hne (by simp [withCtr_getElem_of_not_counterWord hctr, putWords_getElem, hnonce])
  | seek =>
    refine .inr (.inr ⟨?_, .inl rfl⟩)
    by_contra hctr
    exact hne (withCtr_getElem_of_not_counterWord (Bool.eq_false_of_not_eq_true hctr) _ _ _)
  | combine =>
    refine .inr (.inr ⟨?_, .inr rfl⟩)
    by_contra hctr
    exact hne (by simp only [setPos_S, withCtr_getElem_of_not_counterWord (Bool.eq_false_of_not_eq_true hctr)])
  | ksblk | ksblkIdx | status => exact absurd rfl hne

theorem Effect.opc_eq_init_of_word_ne {i : Instr} {s u : State} (h : Effect i s u) {k : Nat} (hk : k < 12)
    (hne : u.S[k] ≠ s.S[k]) : i.opc = 0x01 := by
  have hctr := counterWord_eq_false_of_lt s.cfg.nonceMode hk
  obtain hinit | ⟨hk12, -⟩ | ⟨hctr', -⟩ := h.opc_of_word_ne (by omega) hne
  · exact hinit
  · omega
  · simp [hctr] at hctr'

theorem Effect.inv {i : Instr} {s u : State} (h : Effect i s u) (hs : Inv s) : Inv u := by
  have hconst (hi : i.opc ≠ 0x01) (k : Nat) (hk : k < 4) : u.S[k] = s.S[k] :=
    not_imp_comm.1 (h.opc_eq_init_of_word_ne (by omega)) hi
  obtain ⟨hend, hcon, hfresh⟩ := hs
  cases h with
  | init hkey hnonce =>
    refine ⟨exhaustedAtEnd_of_not_exh rfl, fun _ => ?_, freshBeforeInit_of_initF rfl⟩
    simp only [initialised_S hkey hnonce]
    exact inputState_constants ..
  | resync hi | seek hi =>
    exact ⟨exhaustedAtEnd_of_not_exh rfl, hcon.of_words hi (hconst (by simp [Instr.opc])),
      freshBeforeInit_of_initF hi⟩
  | combine hi =>
    exact ⟨exhaustedAtEnd_setPos _ _, hcon.of_words hi (hconst (by simp [Instr.opc])),
      freshBeforeInit_of_initF (by simpa using hi)⟩
  | ksblk | ksblkIdx | status => exact ⟨hend, hcon, hfresh⟩

theorem inv_hardwareReset (s : State) : Inv (hardwareReset s) :=
  ⟨exhaustedAtEnd_of_not_exh rfl, nofun, fun _ => ⟨rfl, rfl⟩⟩

/-- Settles O44: an error writes neither S nor a flag, each command's effect keeps the invariant, and a reset
establishes it. -/
theorem stepKeepsInvariant : Obligations.StepKeepsInvariant := by
  intro s t hs h
  obtain ⟨-, rfl⟩ | ⟨x, rest, -, rfl⟩ | ⟨c, rest, hin, -⟩ := step_cases h
  · exact hs
  · exact inv_hardwareReset _
  · obtain ⟨r, -, rfl⟩ | ⟨i, u, data, -, -, hu, rfl⟩ := step_command_cases hin h
    · simpa using hs
    · simpa using hu.inv ((inv_inputs s rest).2 hs)

/-- Settles O43: at power-on INIT_F, EXH and OFS are 0, which leaves nothing to ask of S. -/
theorem invariantHoldsAfterReset : Obligations.InvariantHoldsAfterReset :=
  fun _ => ⟨exhaustedAtEnd_of_not_exh rfl, nofun, fun _ => ⟨rfl, rfl⟩⟩

end Sys2Proof.Machine
end

section
/-! PROOFS. STATUS and the flags (10_state.md R28, R29, R33): the register's bits, its value at power-on, and which steps
write INIT_F. -/

namespace Sys2Proof.Machine

/-! ### The bits of STATUS -/

theorem flagBit_getLsbD (b : Bool) (i : Nat) : (flagBit b).getLsbD i = (decide (i = 0) && b) := by
  cases b <;> simp [flagBit]

/-- STATUS bit by bit (10_state.md R29). -/
theorem statusWord_getLsbD (s : State) (i : Nat) :
    (statusWord s).getLsbD i =
      if i = 0 then s.initF
      else if i = 1 then s.exh
      else if i < 8 then s.ofs.getLsbD (i - 2)
      else if i < 10 then s.cfg.rounds.rcfg.getLsbD (i - 8)
      else s.cfg.nonceMode.nmode.getLsbD (i - 10) := by
  by_cases h : i < 32
  · simp only [statusWord, BitVec.getLsbD_or, BitVec.getLsbD_shiftLeft, flagBit_getLsbD]
    interval_cases i <;> simp
  · rw [BitVec.getLsbD_of_ge _ _ (by omega), if_neg (by omega), if_neg (by omega), if_neg (by omega),
      if_neg (by omega), BitVec.getLsbD_of_ge _ _ (by omega)]

theorem statusWord_ofs (s : State) : (statusWord s).extractLsb' 2 6 = s.ofs := by
  apply BitVec.eq_of_getLsbD_eq
  intro i hi
  rw [BitVec.getLsbD_extractLsb', statusWord_getLsbD, if_neg (by omega), if_neg (by omega), if_pos (by omega)]
  simp [hi]

theorem statusWord_rcfg (s : State) : (statusWord s).extractLsb' 8 2 = s.cfg.rounds.rcfg := by
  apply BitVec.eq_of_getLsbD_eq
  intro i hi
  rw [BitVec.getLsbD_extractLsb', statusWord_getLsbD, if_neg (by omega), if_neg (by omega), if_neg (by omega),
    if_pos (by omega)]
  simp [hi]

theorem statusWord_nmode (s : State) : (statusWord s).getLsbD 10 = s.cfg.nonceMode.nmode.getLsbD 0 :=
  statusWord_getLsbD s 10

theorem statusWord_reserved (s : State) : (statusWord s).extractLsb' 11 21 = 0 := by
  apply BitVec.eq_of_getLsbD_eq
  intro i hi
  rw [BitVec.getLsbD_extractLsb', statusWord_getLsbD, if_neg (by omega), if_neg (by omega), if_neg (by omega),
    if_neg (by omega), BitVec.getLsbD_of_ge _ _ (by omega)]
  simp

/-- Settles O37: each field is read off `statusWord_getLsbD`, and the codes are those of `rcfg` and `nmode`. -/
theorem statusRegisterFields : Obligations.StatusRegisterFields := by
  intro s
  refine ⟨statusWord_getLsbD s 0, statusWord_getLsbD s 1, statusWord_ofs s, ?_, ?_, statusWord_reserved s⟩
  · rw [statusWord_rcfg]; cases s.cfg.rounds <;> rfl
  · rw [statusWord_nmode]; cases s.cfg.nonceMode <;> rfl

/-- Settles O13: every field of STATUS but the two of the configuration is 0 at power-on. -/
theorem powerOnFlagsAndStatus : Obligations.PowerOnFlagsAndStatus := by
  refine ⟨fun cfg => ⟨rfl, rfl, rfl, ?_⟩, rfl, rfl, rfl, rfl, rfl⟩
  simp [statusWord, State.powerOn, flagBit]

/-! ### INIT_F -/

/-- No command clears INIT_F, and INIT alone sets it. -/
theorem Effect.initF {i : Instr} {s u : State} (h : Effect i s u) :
    u.initF = s.initF ∨ u.initF = true ∧ ∃ key nonce, i = .init key nonce := by
  cases h with
  | init => exact .inr ⟨rfl, _, _, rfl⟩
  | combine => exact .inl (setPos_initF _ _)
  | resync | seek | ksblk | ksblkIdx | status => exact .inl rfl

/-- INIT's response has no data (43_cmd_setup.md R101). -/
theorem responses_of_init {key nonce : List Byte} {s t u : State} (hu : Effect (.init key nonce) s u)
    (h : exec (.init key nonce) s = .next t) : t.responses = s.responses ++ [⟨0x00000000, []⟩] := by
  cases hu with
  | init hk hn =>
    rw [exec_init_ok hk hn] at h
    obtain rfl := Host.Outcome.next.inj h
    simp [mkResponse_error, Result.code]

/-- Settles O47: only a reset and the effect of a command write INIT_F, and of the commands only INIT. -/
theorem initFlagSetByInitClearedByReset : Obligations.InitFlagSetByInitClearedByReset := by
  intro s t h
  by_cases hkept : t.initF = s.initF
  · exact ⟨fun h1 h0 => by simp [h1, h0] at hkept, fun h0 h1 => by simp [h0, h1] at hkept⟩
  · obtain ⟨-, rfl⟩ | ⟨x, rest, hin, rfl⟩ | ⟨c, rest, hin, -⟩ := step_cases h
    · exact absurd rfl hkept
    · exact ⟨fun _ _ => ⟨x, rest, hin⟩, fun _ h1 => by simp at h1⟩
    · obtain ⟨r, -, rfl⟩ | ⟨i, u, data, hd, hx, hu, rfl⟩ := step_command_cases hin h
      · exact absurd rfl hkept
      · obtain hsame | ⟨hset, key, nonce, rfl⟩ := hu.initF
        · exact absurd hsame hkept
        · have hresp := responses_of_init hu hx
          exact ⟨fun _ h0 => by simp [hset] at h0, fun _ _ => ⟨c, rest, hin, low_bits_of_decode_init hd, hresp⟩⟩

end Sys2Proof.Machine
end

section
/-! PROOFS. The words of S and the cursor (10_state.md R23, R26, R27): which commands move each of them, and what an
exhausted stream answers. -/

namespace Sys2Proof.Machine

/-! ### Which commands write which words -/

theorem ConstantsInPlace.word_eq {s u : State} (hs : ConstantsInPlace s) (hu : ConstantsInPlace u)
    (hsi : s.initF = true) (hui : u.initF = true) {k : Nat} (hk : k < 4) : u.S[k] = s.S[k] := by
  obtain ⟨s0, s1, s2, s3⟩ := hs hsi
  obtain ⟨u0, u1, u2, u3⟩ := hu hui
  interval_cases k
  · exact u0.trans s0.symm
  · exact u1.trans s1.symm
  · exact u2.trans s2.symm
  · exact u3.trans s3.symm

/-- No command, INIT included, changes the constants of an initialised engine (10_state.md R23, item 1). -/
theorem Effect.constant_word_eq_of_inv {i : Instr} {s u : State} (h : Effect i s u) (hs : Inv s)
    (hsi : s.initF = true) {k : Nat} (hk : k < 4) : u.S[k] = s.S[k] := by
  have hui : u.initF = true := by
    obtain hsame | ⟨hset, -⟩ := h.initF
    · exact hsame.trans hsi
    · exact hset
  obtain ⟨-, hcu, -⟩ := h.inv hs
  obtain ⟨-, hcs, -⟩ := hs
  exact hcs.word_eq hcu hsi hui hk

/-- Settles O45: an error writes no word, and which command's effect writes which word is `Effect.opc_of_word_ne`. -/
theorem wordsChangeOnlyInTheirCommands : Obligations.WordsChangeOnlyInTheirCommands := by
  intro s t c rest hin h
  obtain ⟨r, -, rfl⟩ | ⟨i, u, data, hd, -, hu, rfl⟩ := step_command_cases hin h
  · exact ⟨_, rfl, fun k hk hne => absurd rfl hne⟩
  · obtain ⟨-, -, hresp, -⟩ := hu.frame
    have hopc : c.cw.extractLsb' 0 8 = i.opc := opcField_of_decode hd
    rw [hopc]
    refine ⟨mkResponse .ok data, by simp [hresp], fun k hk hne => ?_⟩
    have hwrites := hu.opc_of_word_ne hk hne
    have hlow : k < 12 → i.opc = 0x01 := fun hk12 => hu.opc_eq_init_of_word_ne hk12 hne
    refine ⟨(resultField_eq_zero .ok data).2 rfl, fun hk4 => ⟨hlow (by omega), fun hinv => ?_⟩, fun _ => hlow,
      fun _ hctr => ?_, fun _ => by tauto⟩
    · by_contra hsi
      exact hne (hu.constant_word_eq_of_inv hinv (by simpa using hsi) hk4)
    · simp only [hctr, Bool.false_eq_true, false_and, or_false] at hwrites
      tauto

/-! ### The cursor -/

/-- Of the effects of these commands only COMBINE's moves the cursor, by the data's length (10_state.md R27). -/
theorem Effect.pos {i : Instr} {s u : State} (h : Effect i s u) (hinit : i.opc ≠ 0x01) (hresync : i.opc ≠ 0x02)
    (hseek : i.opc ≠ 0x03) :
    u.pos = s.pos ∨ ∃ dir data, i = .combine dir data ∧ u.pos = s.pos + data.length := by
  cases h with
  | init | resync | seek => simp [Instr.opc] at hinit hresync hseek
  | combine _ hlimit => exact .inr ⟨_, _, rfl, pos_setPos _ _ hlimit⟩
  | ksblk | ksblkIdx | status => exact .inl rfl

/-- Settles O49: an error leaves the cursor, and COMBINE's effect moves it by LEN. -/
theorem onlyCombineAdvancesCursor : Obligations.OnlyCombineAdvancesCursor := by
  intro s t c rest hin h hinit hresync hseek
  obtain ⟨r, -, rfl⟩ | ⟨i, u, data, hd, -, hu, rfl⟩ := step_command_cases hin h
  · exact .inl rfl
  · have hopc : c.cw.extractLsb' 0 8 = i.opc := opcField_of_decode hd
    rw [hopc] at hinit hresync hseek ⊢
    obtain hpos | ⟨dir, bytes, rfl, hpos⟩ := hu.pos hinit hresync hseek
    · exact .inl hpos
    · have hlen : bytes.length = (c.cw.extractLsb' 16 16).toNat := length_of_decode_combine hd
      exact .inr ⟨rfl, hlen ▸ hpos⟩

/-! ### The exhausted stream -/

/-- Each command but INIT, RESYNC and SEEK leaves an exhausted stream as it is (10_state.md R26): COMBINE can only be one
of no data, which moves the cursor to where it stands. -/
theorem exec_of_exhausted {i : Instr} {s : State} (hx : s.exh = true) (hend : ExhaustedAtEnd s)
    (hinit : ∀ k n, i ≠ .init k n) (hresync : ∀ n, i ≠ .resync n) (hseek : ∀ idx, i ≠ .seek idx) :
    ∃ r, exec i s = .next { s with responses := s.responses ++ [r] } := by
  obtain ⟨r, -, hf⟩ | ⟨u, data, hu, ho⟩ := exec_cases i s
  · exact ⟨_, hf⟩
  · suffices hus : u = s from ⟨mkResponse .ok data, by rw [ho, hus]; rfl⟩
    cases hu with
    | init => exact absurd rfl (hinit _ _)
    | resync => exact absurd rfl (hresync _)
    | seek => exact absurd rfl (hseek _)
    | combine _ hlimit =>
      have hpos := s.pos_eq_limit.2 hx
      rw [show List.length _ = 0 by omega, Nat.add_zero]
      exact setPos_pos s hend
    | ksblk | ksblkIdx | status => rfl

theorem execAll_of_exhausted {cs : List Instr} {s : State} (hx : s.exh = true) (hend : ExhaustedAtEnd s)
    (hcs : ∀ i ∈ cs, (∀ k n, i ≠ .init k n) ∧ (∀ n, i ≠ .resync n) ∧ ∀ idx, i ≠ .seek idx) :
    ∃ rs, execAll cs s = .next { s with responses := rs } := by
  induction cs generalizing s with
  | nil => exact ⟨s.responses, rfl⟩
  | cons i cs ih =>
    rw [List.forall_mem_cons] at hcs
    obtain ⟨⟨hinit, hresync, hseek⟩, hcs⟩ := hcs
    obtain ⟨r, hr⟩ := exec_of_exhausted hx hend hinit hresync hseek
    rw [execAll, hr]
    exact ih (s := { s with responses := s.responses ++ [r] }) hx hend hcs

theorem exec_ksblk_of_exhausted {s : State} (hi : s.initF = true) (hx : s.exh = true) :
    exec .ksblk s = .next (fail .counterOverflow s) := by simp [exec, execKsblk, hi, hx]

theorem exec_combine_of_exhausted {s : State} (hi : s.initF = true) (hx : s.exh = true) (dir : Dir)
    {data : List Byte} (hd : data ≠ []) : exec (.combine dir data) s = .next (fail .counterOverflow s) := by
  have hpos := s.pos_eq_limit.2 hx
  have hlen := List.length_pos_iff.2 hd
  have hover : s.pos + data.length > s.cfg.nonceMode.limit := by omega
  simp [exec, execCombine, hi, hover]

/-- Settles O48: by induction on the commands the stream stays as it is, and there KSBLK and COMBINE fail. -/
theorem exhaustedUntilRestarted : Obligations.ExhaustedUntilRestarted := by
  intro s cs hi hx hend hcs
  obtain ⟨rs, hrs⟩ := execAll_of_exhausted hx hend hcs
  exact ⟨_, hrs, rfl, exec_ksblk_of_exhausted hi hx, fun dir _ hd =>
    exec_combine_of_exhausted (s := { s with responses := rs }) hi hx dir hd⟩

end Sys2Proof.Machine
end

section
/-! PROOFS. Noninterference of the unspecified words (10_state.md R33; 70_reset_and_hazards.md R152): engines that are not
initialised and differ only in S run alike. -/

namespace Sys2Proof.Machine

/-- The two states are one state, or an engine that is not initialised with two contents of S. -/
inductive SameButUnspecified : State → State → Prop where
  | same (s : State) : SameButUnspecified s s
  | unspecified {s : State} (hi : s.initF = false) (W : Words) : SameButUnspecified s { s with S := W }

/-- The two outcomes are next states that agree in this sense, or one stop. -/
inductive Alike : Host.Outcome State Fault Refusal → Host.Outcome State Fault Refusal → Prop where
  | next {s u : State} (h : SameButUnspecified s u) : Alike (.next s) (.next u)
  | fault (r : Fault) : Alike (.fault r) (.fault r)
  | refused (r : Refusal) : Alike (.refused r) (.refused r)

theorem Alike.refl : ∀ o, Alike o o
  | .next s => .next (.same s)
  | .fault r => .fault r
  | .refused r => .refused r

theorem Alike.fail {s : State} (hi : s.initF = false) (W : Words) (r : Result) :
    Alike (.next (fail r s)) (.next (fail r { s with S := W })) :=
  .next (.unspecified (s := Machine.fail r s) hi W)

theorem exec_of_not_initF {i : Instr} {s : State} (hi : s.initF = false) (hinit : ∀ k n, i ≠ .init k n)
    (hstatus : i ≠ .status) : exec i s = .next (fail .notInitialized s) := by
  cases i with
  | init key nonce => exact absurd rfl (hinit key nonce)
  | status => exact absurd rfl hstatus
  | resync | seek | ksblk | ksblkIdx | combine => exact whenInitialized_false hi _

/-- A command of an engine that is not initialised fails whatever S holds, reads STATUS, which S is no part of, or is an
INIT, which writes all of S. -/
theorem exec_alike {s : State} (hi : s.initF = false) (W : Words) (i : Instr) :
    Alike (exec i s) (exec i { s with S := W }) := by
  by_cases hinit : ∃ key nonce, i = .init key nonce
  · obtain ⟨key, nonce, rfl⟩ := hinit
    by_cases hk : key.length = 32
    · by_cases hn : nonce.length = s.cfg.nonceMode.nonceLen
      · rw [exec_init_inputState hk hn, exec_init_inputState (s := { s with S := W }) hk hn]
        exact .refl _
      · simpa [exec, execInit, hk, hn] using Alike.fail hi W .invalidNonceLength
    · simpa [exec, execInit, hk] using Alike.fail hi W .invalidKeyLength
  · simp only [not_exists] at hinit
    by_cases hstatus : i = .status
    · subst hstatus
      exact .next (.unspecified (s := respond .ok (leBytes (statusWord s)) s) hi W)
    · rw [exec_of_not_initF hi hinit hstatus, exec_of_not_initF (s := { s with S := W }) hi hinit hstatus]
      exact .fail hi W .notInitialized

theorem rejectCommand_alike {s : State} (hi : s.initF = false) (W : Words) (r : Reject) :
    Alike (rejectCommand r s) (rejectCommand r { s with S := W }) := by
  cases r with
  | opcZero | unassignedOpc | reservedBit => exact .fail hi W .illegalCommand
  | payloadLength | truncated => exact .fault .payloadLength

theorem step_alike {s u : State} (h : SameButUnspecified s u) : Alike (step s) (step u) := by
  cases h with
  | same => exact .refl _
  | unspecified hi W =>
    obtain ⟨es, hin⟩ : ∃ es, s.inputs = es := ⟨_, rfl⟩
    cases es with
    | nil =>
      rw [step_of_no_input hin, step_of_no_input (s := { s with S := W }) hin]
      exact .next (.unspecified hi W)
    | cons e rest =>
      cases e with
      | reset x =>
        rw [step_of_reset hin, step_of_reset (s := { s with S := W }) hin]
        exact .refl _
      | command c =>
        cases hd : decode c with
        | ok i =>
          rw [step_of_decode_ok hin hd, step_of_decode_ok (s := { s with S := W }) hin hd]
          exact exec_alike (s := { s with inputs := rest }) hi W i
        | error r =>
          rw [step_of_decode_error hin hd, step_of_decode_error (s := { s with S := W }) hin hd]
          exact rejectCommand_alike (s := { s with inputs := rest }) hi W r

theorem runSteps_alike (n : Nat) {s u : State} (h : SameButUnspecified s u) : Alike (runSteps n s) (runSteps n u) := by
  induction n generalizing s u with
  | zero => exact .next h
  | succ n ih =>
    have hstep := step_alike h
    rw [runSteps, runSteps]
    generalize step s = o, step u = p at hstep ⊢
    cases hstep with
    | next h => exact ih h
    | fault r => exact .fault r
    | refused r => exact .refused r

/-- Settles O51: runs of engines that differ in unspecified words only stay alike, and alike states show the same. -/
theorem unspecifiedWordsNeverObserved : Obligations.UnspecifiedWordsNeverObserved := by
  intro s W n hi
  have halike := runSteps_alike n (.unspecified hi W)
  generalize runSteps n s = o, runSteps n { s with S := W } = p at halike ⊢
  cases halike with
  | fault | refused => rfl
  | next hsame =>
    cases hsame with
    | same => exact ⟨rfl, rfl, fun _ => rfl⟩
    | unspecified hi W => exact ⟨rfl, rfl, fun hinit => by simp [hi] at hinit⟩

end Sys2Proof.Machine
end

section
/-! PROOFS. Commands as transactions (20_memory.md R36, R40): a command is framed out of a byte stream, and a command other
than COMBINE leaves the same state when it is repeated. -/

namespace Sys2Proof.Machine

/-! ### Byte transport -/

/-- Packing the bytes of a word gives it back (42_le_packer.md R89, R90). -/
theorem leWord_leBytes (w : Word) :
    leWord (w.extractLsb' 0 8) (w.extractLsb' 8 8) (w.extractLsb' 16 8) (w.extractLsb' 24 8) = w := by
  apply BitVec.eq_of_getLsbD_eq
  intro i hi
  simp only [leWord, BitVec.getLsbD_or, BitVec.getLsbD_shiftLeft, BitVec.getLsbD_setWidth, BitVec.getLsbD_extractLsb']
  interval_cases i <;> simp

/-- On a stream that begins with a word's bytes, framing takes its PLEN bytes after them (30_encoding.md R46, R53). -/
theorem frame_leBytes_append (w : Word) (bs : List Byte) :
    frame (leBytes w ++ bs) =
      if bs.length < plen w then none else some (⟨w, bs.take (plen w)⟩, bs.drop (plen w)) := by
  simp only [leBytes, List.cons_append, List.nil_append, frame, leWord_leBytes]

/-- Settles O5: the word is read back from its bytes, and cutting after PLEN bytes parts the payload from the rest. -/
theorem byteStreamFramesCommands : Obligations.ByteStreamFramesCommands := by
  intro c rest hlen
  have henough : ¬ (c.payload ++ rest).length < plen c.cw := by simp [← hlen]
  rw [Command.toBytes, List.append_assoc, frame_leBytes_append, if_neg henough, ← hlen, List.take_left, List.drop_left]

/-! ### Repeated commands -/

/-- The state a command leaves: the one it found, with an error response, or its effect's, with an OK response. -/
theorem exec_next_cases {i : Instr} {s t : State} (h : exec i s = .next t) :
    (∃ r, t = fail r s) ∨ ∃ u data, Effect i s u ∧ t = respond .ok data u := by
  obtain ⟨r, -, hf⟩ | ⟨u, data, hu, ho⟩ := exec_cases i s
  · exact .inl ⟨r, Host.Outcome.next.inj (h.symm.trans hf)⟩
  · exact .inr ⟨u, data, hu, Host.Outcome.next.inj (h.symm.trans ho)⟩

theorem cfg_of_exec {i : Instr} {s t : State} (h : exec i s = .next t) : t.cfg = s.cfg := by
  obtain ⟨r, rfl⟩ | ⟨u, data, hu, rfl⟩ := exec_next_cases h
  · rfl
  · obtain ⟨hcfg, -⟩ := hu.frame
    exact hcfg

/-- No command but INIT writes INIT_F (10_state.md R28). -/
theorem initF_of_exec {i : Instr} {s t : State} (h : exec i s = .next t) (hinit : ∀ key nonce, i ≠ .init key nonce) :
    t.initF = s.initF := by
  obtain ⟨r, rfl⟩ | ⟨u, data, hu, rfl⟩ := exec_next_cases h
  · rfl
  · obtain hsame | ⟨-, key, nonce, rfl⟩ := hu.initF
    · exact hsame
    · exact absurd rfl (hinit key nonce)

/-- What a counter write leaves in a counter word does not depend on what was there. -/
theorem withCtr_getElem_of_counterWord {m : NonceMode} {i : Nat} (hc : counterWord m i = true) (S W : Words) (idx : Nat)
    (h : i < 16) : (withCtr m S idx)[i] = (withCtr m W idx)[i] := by
  cases m <;> simp only [counterWord, Bool.or_eq_true, beq_iff_eq] at hc
  · obtain rfl | rfl := hc <;> simp [withCtr]
  · subst hc; simp [withCtr]

/-- Loading the same words and writing the same counter a second time changes nothing: each word is a counter word, a
loaded word, or one that neither writes. -/
theorem withCtr_putWords_idem (m : NonceMode) (ws : List Word) (base idx : Nat) (S : Words) :
    withCtr m (putWords ws base (withCtr m (putWords ws base S) idx)) idx = withCtr m (putWords ws base S) idx := by
  ext i hi : 1
  cases hc : counterWord m i
  · simp only [withCtr_getElem_of_not_counterWord hc, putWords_getElem]
    split <;> rfl
  · exact withCtr_getElem_of_counterWord hc ..

/-- Settles O20: a command that fails or only reads leaves the state it finds. An INIT, RESYNC or SEEK that takes effect
the second time did so the first time too, for that depends on its operands, the configuration and INIT_F only; and the
second time it writes what it wrote before. -/
theorem repeatedCommandLeavesSameState : Obligations.RepeatedCommandLeavesSameState := by
  intro i s t u hcombine hfirst hsecond
  have hcfg := cfg_of_exec hfirst
  obtain ⟨r, rfl⟩ | ⟨v, data, hv, rfl⟩ := exec_next_cases hsecond
  · rfl
  · cases hv with
    | init hk hn =>
      rw [Host.Outcome.next.inj (hsecond.symm.trans (exec_init_inputState hk hn))]
      rw [hcfg] at hn
      obtain rfl := Host.Outcome.next.inj ((exec_init_inputState hk hn).symm.trans hfirst)
      rfl
    | resync hi hn =>
      rw [initF_of_exec hfirst nofun] at hi
      rw [hcfg] at hn
      obtain rfl := Host.Outcome.next.inj ((exec_resync_ok hi hn).symm.trans hfirst)
      simp [respond, resetStream, setCtr, loadNonce, withCtr_putWords_idem]
    | seek hi hidx =>
      rw [initF_of_exec hfirst nofun] at hi
      rw [hcfg] at hidx
      obtain rfl := Host.Outcome.next.inj ((exec_seek_ok hi hidx).symm.trans hfirst)
      simp [respond, setCtr]
    | combine => exact absurd rfl (hcombine _ _)
    | ksblk | ksblkIdx | status => rfl

end Sys2Proof.Machine
end

section
/-! PROOFS. Command encoding (30_encoding.md): the opcode map (R48), the payload length (R53), the illegal words (R55),
the cut of long data (R56), and where a step stops (R46). -/

namespace Sys2Proof

/-! ### The opcode map -/

theorem opcodeTable_op_injective : ∀ r ∈ opcodeTable, ∀ r' ∈ opcodeTable, r.op = r'.op → r = r' := by decide

theorem opcodeTable_opc_injective :
    ∀ r ∈ opcodeTable, ∀ r' ∈ opcodeTable, r.pattern.extractLsb' 0 8 = r'.pattern.extractLsb' 0 8 → r = r' := by decide

@[simp] theorem OpRow.selects_iff (r : OpRow) (cw : Word) : r.selects cw = true ↔ cw &&& r.mask = r.pattern := by
  simp [OpRow.selects]

/-- A row's pattern has the OPC of every word the row selects. -/
theorem opcField_of_mask {r : OpRow} (hr : r ∈ opcodeTable) {cw : Word} (h : cw &&& r.mask = r.pattern) :
    opcField cw = r.pattern.extractLsb' 0 8 := by
  obtain ⟨hmask, -⟩ := opcField_of_row hr cw []
  exact extractLsb'_of_mask h 0 8 hmask

/-- No word matches two rows: the rows' patterns differ in OPC, which every mask covers (30_encoding.md R48). -/
theorem opRow_unique {r r' : OpRow} (hr : r ∈ opcodeTable) (hr' : r' ∈ opcodeTable) {cw : Word}
    (h : cw &&& r.mask = r.pattern) (h' : cw &&& r'.mask = r'.pattern) : r = r' :=
  opcodeTable_opc_injective r hr r' hr' ((opcField_of_mask hr h).symm.trans (opcField_of_mask hr' h'))

theorem selectRow_eq_none_iff (cw : Word) : selectRow cw = none ↔ ∀ r ∈ opcodeTable, cw &&& r.mask ≠ r.pattern := by
  simp only [selectRow, Option.map_eq_none_iff, List.find?_eq_none, OpRow.selects_iff, ne_eq]

theorem selectRow_eq_some_iff {r : OpRow} (hr : r ∈ opcodeTable) (cw : Word) :
    selectRow cw = some r.op ↔ cw &&& r.mask = r.pattern := by
  constructor
  · intro h
    obtain ⟨r', hr', hop, hcw⟩ := exists_row_of_selectRow h
    obtain rfl := opcodeTable_op_injective r' hr' r hr hop
    exact hcw
  · intro h
    cases hsel : selectRow cw with
    | none => exact absurd h ((selectRow_eq_none_iff cw).1 hsel r hr)
    | some op =>
      obtain ⟨r', hr', rfl, hcw⟩ := exists_row_of_selectRow hsel
      rw [opRow_unique hr hr' h hcw]

/-- Settles O3: the rule holds of each row of the table, and an instruction needs a selected row. -/
theorem wordSelectsRowByMask : Obligations.WordSelectsRowByMask := by
  intro cw
  have hrows : ∀ r ∈ opcodeTable, (selectRow cw = some r.op ↔ cw &&& r.mask = r.pattern) :=
    fun r hr => selectRow_eq_some_iff hr cw
  simp only [opcodeTable, List.forall_mem_cons] at hrows
  obtain ⟨hinit, hresync, hseek, hksblk, hksblkIdx, hcombine, hstatus, -⟩ := hrows
  refine ⟨hinit, hresync, hseek, hksblk, hksblkIdx, hcombine, hstatus, fun hnone payload i hd => ?_⟩
  obtain ⟨-, op, hsome, -⟩ := decode_eq_ok_iff.1 hd
  simp [hnone] at hsome

/-! ### The payload length -/

theorem opcField_append (x : BitVec 24) (opc : Byte) : opcField (x ++ opc) = opc :=
  BitVec.extractLsb'_append_eq_right

theorem klenField_append (x : BitVec 24) (opc : Byte) : klenField (x ++ opc) = x.extractLsb' 8 8 :=
  BitVec.extractLsb'_append_eq_of_le (by decide)

theorem nlenField_append (x : BitVec 24) (opc : Byte) : nlenField (x ++ opc) = x.extractLsb' 16 8 :=
  BitVec.extractLsb'_append_eq_of_le (by decide)

theorem lenField_append (x : BitVec 24) (opc : Byte) : lenField (x ++ opc) = x.extractLsb' 8 16 :=
  BitVec.extractLsb'_append_eq_of_le (by decide)

/-- Settles O4: OPC is the low byte, and each length field is read out of the 24 bits above it. -/
theorem payloadLengthReadsOpcAndLengthFields : Obligations.PayloadLengthReadsOpcAndLengthFields := by
  refine ⟨fun nlen klen rsv => ?_, fun nlen rsv => ?_, fun rsv => ?_, fun rsv => ?_, fun len x => ?_,
    fun x opc h1 h2 h3 h5 h6 => ?_⟩
  · have hklen : (nlen ++ klen ++ rsv).extractLsb' 8 8 = klen :=
      (BitVec.extractLsb'_append_eq_of_le (by decide)).trans BitVec.extractLsb'_append_eq_right
    have hnlen : (nlen ++ klen ++ rsv).extractLsb' 16 8 = nlen :=
      (BitVec.extractLsb'_append_eq_of_le (by decide)).trans BitVec.extractLsb'_append_eq_left
    rw [plen, opcField_append, klenField_append, nlenField_append, hklen, hnlen]
    rfl
  · rw [plen, opcField_append, nlenField_append, BitVec.extractLsb'_append_eq_left]
    rfl
  · rw [plen, opcField_append]
    rfl
  · rw [plen, opcField_append]
    rfl
  · rw [plen, opcField_append, lenField_append, BitVec.extractLsb'_append_eq_left]
    rfl
  · rw [plen, opcField_append, if_neg h1, if_neg h2, if_neg h3, if_neg h5, if_neg h6]

/-! ### Illegal words -/

/-- The first RSV bit of a command's format (30_encoding.md R47, R55). -/
def Opcode.rsvStart : Opcode → Nat
  | .COMBINE => 9
  | _ => 8

/-- The number of RSV bits of a command's format (30_encoding.md R47, R55). -/
def Opcode.rsvWidth : Opcode → Nat
  | .INIT => 8
  | .RESYNC => 16
  | .COMBINE => 7
  | .SEEK | .KSBLK | .KSBLK_IDX | .STATUS => 24

/-- A row's mask has the bits of OPC and of RSV. -/
theorem mask_getLsbD : ∀ r ∈ opcodeTable, ∀ i < 32, r.mask.getLsbD i =
    (decide (i < 8) || decide (r.op.rsvStart ≤ i ∧ i < r.op.rsvStart + r.op.rsvWidth)) := by decide

/-- A row's pattern has no bits but those of OPC. -/
theorem pattern_getLsbD : ∀ r ∈ opcodeTable, ∀ i < 32, r.pattern.getLsbD i = true → i < 8 := by decide

theorem rsv_of_row : ∀ r ∈ opcodeTable,
    r.mask.extractLsb' r.op.rsvStart r.op.rsvWidth = BitVec.allOnes r.op.rsvWidth ∧
      r.pattern.extractLsb' r.op.rsvStart r.op.rsvWidth = 0 := by decide

/-- A word has a row's match value under its mask exactly when its OPC is the row's and its RSV bits are clear. -/
theorem and_mask_eq_iff {r : OpRow} (hr : r ∈ opcodeTable) (cw : Word) :
    cw &&& r.mask = r.pattern ↔
      opcField cw = r.pattern.extractLsb' 0 8 ∧ cw.extractLsb' r.op.rsvStart r.op.rsvWidth = 0 := by
  constructor
  · intro h
    obtain ⟨hmask, hpattern⟩ := rsv_of_row r hr
    exact ⟨opcField_of_mask hr h, (extractLsb'_of_mask h _ _ hmask).trans hpattern⟩
  · rintro ⟨hopc, hrsv⟩
    apply BitVec.eq_of_getLsbD_eq
    intro i hi
    rw [BitVec.getLsbD_and, mask_getLsbD r hr i hi]
    by_cases hlow : i < 8
    · have hbit := congrArg (·.getLsbD i) hopc
      simpa [opcField, hlow] using hbit
    · have hclear : r.pattern.getLsbD i = false := by
        simpa using mt (pattern_getLsbD r hr i hi) hlow
      by_cases hin : r.op.rsvStart ≤ i ∧ i < r.op.rsvStart + r.op.rsvWidth
      · have hbit := congrArg (·.getLsbD (i - r.op.rsvStart)) hrsv
        have hlt : i - r.op.rsvStart < r.op.rsvWidth := by omega
        simpa [hclear, hin, hlt, Nat.add_sub_cancel' hin.1] using hbit
      · simp [hlow, hin, hclear]

end Sys2Proof

namespace Sys2Proof.Machine

theorem opc_cases (opc : Byte) :
    8 ≤ opc ∨ opc = 0 ∨ opc = 1 ∨ opc = 2 ∨ opc = 3 ∨ opc = 4 ∨ opc = 5 ∨ opc = 6 ∨ opc = 7 := by
  bv_omega

/-- The three cases of R55 leave out the words with the OPC of a row and its RSV bits clear. -/
theorem illegalWord_eq_false_iff_fields (cw : Word) : illegalWord cw = false ↔
    ∃ r ∈ opcodeTable, opcField cw = r.pattern.extractLsb' 0 8 ∧ cw.extractLsb' r.op.rsvStart r.op.rsvWidth = 0 := by
  simp only [opcodeTable, List.exists_mem_cons_iff, List.not_mem_nil, false_and, exists_false, or_false, opcField]
  obtain hhigh | hopc | hopc | hopc | hopc | hopc | hopc | hopc | hopc := opc_cases (cw.extractLsb' 0 8)
  · have hne : ∀ k : Byte, k < 8 → cw.extractLsb' 0 8 ≠ k := by
      rintro k hlow rfl
      exact absurd hlow (BitVec.not_lt.2 hhigh)
    simpa [illegalWord, hne] using hhigh
  all_goals simp [illegalWord, hopc, Opcode.rsvStart, Opcode.rsvWidth]

/-- The words R55 leaves legal are those that select a row of the opcode map. -/
theorem illegalWord_eq_false_iff (cw : Word) : illegalWord cw = false ↔ ∃ op, selectRow cw = some op := by
  rw [illegalWord_eq_false_iff_fields]
  constructor
  · rintro ⟨r, hr, hfields⟩
    exact ⟨r.op, (selectRow_eq_some_iff hr cw).2 ((and_mask_eq_iff hr cw).2 hfields)⟩
  · rintro ⟨op, hop⟩
    obtain ⟨r, hr, -, hcw⟩ := exists_row_of_selectRow hop
    exact ⟨r, hr, (and_mask_eq_iff hr cw).1 hcw⟩

theorem illegalWord_eq_true_iff (cw : Word) : illegalWord cw = true ↔ selectRow cw = none := by
  rw [← Bool.not_eq_false, illegalWord_eq_false_iff, ← Option.ne_none_iff_exists', not_ne_iff]

theorem decode_of_wrong_length {c : Command} (h : c.payload.length ≠ plen c.cw) :
    decode c = .error .payloadLength := by
  rw [decode, if_pos h]

theorem decode_of_selectRow_none {c : Command} (hp : c.payload.length = plen c.cw) (h : selectRow c.cw = none) :
    decode c = .error (illegalReason c.cw) := by
  simp [decode, hp, h]

/-- Each of the three cases of R55 is answered with IllegalCommand. -/
theorem rejectCommand_illegalReason (cw : Word) (s : State) :
    rejectCommand (illegalReason cw) s = .next (fail .illegalCommand s) := by
  unfold illegalReason
  split
  · rfl
  · split <;> rfl

theorem step_of_illegal {s : State} {c : Command} {rest : List HostEvent} (hin : s.inputs = .command c :: rest)
    (hp : c.payload.length = plen c.cw) (h : selectRow c.cw = none) :
    step s = .next (fail .illegalCommand { s with inputs := rest }) := by
  rw [step_of_decode_error hin (decode_of_selectRow_none hp h), rejectCommand_illegalReason]

/-- Settles O6: a word is illegal exactly when it selects no row, and any other word decodes with its payload. -/
theorem illegalWordsAnswerIllegalCommand : Obligations.IllegalWordsAnswerIllegalCommand := by
  intro s c rest hin hp
  constructor
  · intro hillegal
    exact step_of_illegal hin hp ((illegalWord_eq_true_iff c.cw).1 hillegal)
  · intro hlegal
    obtain ⟨op, hop⟩ := (illegalWord_eq_false_iff c.cw).1 hlegal
    exact ⟨_, decode_eq_ok_iff.2 ⟨hp, op, hop, rfl⟩⟩

/-! ### Long data -/

theorem flatten_cutPieces (fuel : Nat) (data : List Byte) : (cutPieces fuel data).flatten = data := by
  induction fuel generalizing data with
  | zero => simp [cutPieces]
  | succ fuel ih =>
    rw [cutPieces]
    split
    · simp
    · rw [List.flatten_cons, ih, List.take_append_drop]

/-- The pieces but the last are as long as a COMBINE can be, and the last is no longer, when the cuts suffice. -/
theorem cutPieces_lengths (fuel : Nat) (data : List Byte) (h : data.length ≤ fuel) :
    ∃ pieces last, cutPieces fuel data = pieces ++ [last] ∧ (∀ p ∈ pieces, p.length = maxCombine) ∧
      last.length ≤ maxCombine := by
  induction fuel generalizing data with
  | zero => exact ⟨[], data, rfl, by simp, by omega⟩
  | succ fuel ih =>
    rw [cutPieces]
    split
    next hshort => exact ⟨[], data, rfl, by simp, hshort⟩
    next hlong =>
      have hpos : 0 < maxCombine := by decide
      obtain ⟨pieces, last, hcut, hpieces, hlast⟩ := ih (data.drop maxCombine) (by simp; omega)
      refine ⟨data.take maxCombine :: pieces, last, by rw [hcut, List.cons_append], ?_, hlast⟩
      rw [List.forall_mem_cons]
      exact ⟨List.length_take_of_le (by omega), hpieces⟩

theorem wf_combine_iff (dir : Dir) (data : List Byte) :
    (Instr.combine dir data).wf = true ↔ data.length ≤ maxCombine := by
  simp [Instr.wf, maxCombine, Nat.lt_succ_iff]

/-- Settles O8, by induction on the number of cuts. -/
theorem longCombineIsCutInOrder : Obligations.LongCombineIsCutInOrder := by
  intro dir data
  obtain ⟨pieces, last, hcut, hpieces, hlast⟩ := cutPieces_lengths data.length data le_rfl
  have hexpand : expandPseudo (.combineLong dir data) = (pieces ++ [last]).map (.combine dir) := by
    rw [expandPseudo, hcut]
  refine ⟨pieces, last, hexpand, hcut ▸ flatten_cutPieces data.length data, hpieces, hlast, ?_⟩
  rw [hexpand, List.forall_mem_map]
  intro p hp
  rw [wf_combine_iff]
  obtain hp | hp : p ∈ pieces ∨ p = last := by simpa using hp
  · exact (hpieces p hp).le
  · exact hp ▸ hlast

/-! ### Where a step stops -/

theorem exists_exec_eq_next (i : Instr) (s : State) : ∃ t, exec i s = .next t := by
  obtain ⟨r, -, hfail⟩ | ⟨u, data, -, hok⟩ := exec_cases i s
  · exact ⟨_, hfail⟩
  · exact ⟨_, hok⟩

theorem step_of_wrong_length {s : State} {c : Command} {rest : List HostEvent} (hin : s.inputs = .command c :: rest)
    (hp : c.payload.length ≠ plen c.cw) : step s = .fault .payloadLength :=
  step_of_decode_error hin (decode_of_wrong_length hp)

/-- A command framed by its word has a step, legal or not (30_encoding.md R46, R55). -/
theorem exists_step_of_command {s : State} {c : Command} {rest : List HostEvent} (hin : s.inputs = .command c :: rest)
    (hp : c.payload.length = plen c.cw) : ∃ t, step s = .next t := by
  cases hsel : selectRow c.cw with
  | none => exact ⟨_, step_of_illegal hin hp hsel⟩
  | some op =>
    rw [step_of_decode_ok hin (decode_eq_ok_iff.2 ⟨hp, op, hsel, rfl⟩)]
    exact exists_exec_eq_next ..

theorem exists_step_or_wrong_length (s : State) :
    (∃ t, step s = .next t) ∨ ∃ c rest, s.inputs = .command c :: rest ∧ c.payload.length ≠ plen c.cw := by
  match hin : s.inputs with
  | [] => exact .inl ⟨_, step_of_no_input hin⟩
  | .reset _ :: _ => exact .inl ⟨_, step_of_reset hin⟩
  | .command c :: rest =>
    by_cases hp : c.payload.length = plen c.cw
    · exact .inl (exists_step_of_command hin hp)
    · exact .inr ⟨c, rest, rfl, hp⟩

/-- Settles O10: of the events, only a command with the wrong payload length has no next state. -/
theorem stepFaultsExactlyOnWrongPayloadLength : Obligations.StepFaultsExactlyOnWrongPayloadLength := by
  intro s
  obtain ⟨t, hnext⟩ | ⟨c, rest, hin, hp⟩ := exists_step_or_wrong_length s
  · refine ⟨⟨fun hfault => by simp [hnext] at hfault, ?_⟩, .inl ⟨t, hnext⟩⟩
    rintro ⟨c, rest, hin, hp⟩
    exact step_of_wrong_length hin hp
  · have hfault := step_of_wrong_length hin hp
    exact ⟨⟨fun _ => ⟨c, rest, hin, hp⟩, fun _ => hfault⟩, .inr hfault⟩

end Sys2Proof.Machine
end

section
/-! PROOFS. The quarter_round_unit (40_quarter_round.md): where a rotation moves each bit (R59), and the quarter-round
as four invertible steps (R61, R62). -/

namespace Sys2Proof.Machine

/-! ### Rotation -/

theorem getLsbD_rotl32 (x : Word) (n j : Nat) :
    (rotl32 x n).getLsbD j = (decide (j < 32) && !decide (j < n) && x.getLsbD (j - n) || x.getLsbD (32 - n + j)) := by
  rw [rotl32, BitVec.getLsbD_or, BitVec.getLsbD_shiftLeft, BitVec.getLsbD_ushiftRight]

/-- A bit that `x << n` keeps, n below where it lands; the right shift has none there. -/
theorem getLsbD_rotl32_of_le {n j : Nat} (x : Word) (hn : n ≤ j) (hj : j < 32) :
    (rotl32 x n).getLsbD j = x.getLsbD (j - n) := by
  have hright : x.getLsbD (32 - n + j) = false := x.getLsbD_of_ge _ (by omega)
  rw [getLsbD_rotl32, hright]
  simp [hj, hn]

/-- A bit that `x << n` drops, brought back by `x >> (32 - n)`. -/
theorem getLsbD_rotl32_of_lt {n j : Nat} (x : Word) (hj : j < n) :
    (rotl32 x n).getLsbD j = x.getLsbD (32 - n + j) := by
  rw [getLsbD_rotl32]
  simp [hj]

/-- Settles O52: bit i stays in the word, or it comes round from the top. -/
theorem rotationMovesEveryBit : Obligations.RotationMovesEveryBit := by
  intro x n i hpos hn hi
  obtain hstays | hround := Nat.lt_or_ge (i + n) 32
  · rw [Nat.mod_eq_of_lt hstays, getLsbD_rotl32_of_le x (by omega) hstays, Nat.add_sub_cancel]
  · have hmod : (i + n) % 32 = i + n - 32 := by omega
    have hback : 32 - n + (i + n - 32) = i := by omega
    rw [hmod, getLsbD_rotl32_of_lt x (by omega), hback]

/-- Two words with the same rotation have every bit in common. -/
theorem rotl32_injective {n : Nat} (hpos : 1 ≤ n) (hn : n ≤ 31) : Function.Injective (rotl32 · n) := by
  intro x y hxy
  have hxy : rotl32 x n = rotl32 y n := hxy
  apply BitVec.eq_of_getLsbD_eq
  intro i hi
  rw [← rotationMovesEveryBit x n i hpos hn hi, hxy, rotationMovesEveryBit y n i hpos hn hi]

/-! ### The quarter-round -/

/-- One of the four steps of R61, `a += b; d ^= a; d <<<= n`, with the result turned so that the next step finds its
operands in the same places: c and d take the parts of a and b there. -/
def quarterStep (n : Nat) : Word × Word × Word × Word → Word × Word × Word × Word
  | (a, b, c, d) => (c, rotl32 (d ^^^ add32 a b) n, add32 a b, b)

/-- Four steps turn the words back to their places. -/
theorem quarterRound_eq_steps (x : Word × Word × Word × Word) :
    quarterRound x.1 x.2.1 x.2.2.1 x.2.2.2 = quarterStep 7 (quarterStep 8 (quarterStep 12 (quarterStep 16 x))) :=
  rfl

/-- A step keeps b, c and the sum; the sum gives back a, and then the rotated word gives back d. -/
theorem quarterStep_injective {n : Nat} (hpos : 1 ≤ n) (hn : n ≤ 31) : Function.Injective (quarterStep n) := by
  rintro ⟨a, b, c, d⟩ ⟨a', b', c', d'⟩ h
  simp only [quarterStep, Prod.mk.injEq] at h
  obtain ⟨rfl, hrot, hsum, rfl⟩ := h
  obtain rfl : a = a' := (BitVec.add_left_inj b).1 hsum
  have hxor : d ^^^ add32 a b = d' ^^^ add32 a b := rotl32_injective hpos hn hrot
  obtain rfl : d = d' := (BitVec.xor_left_inj _).1 hxor
  rfl

theorem quarterStep_bijective {n : Nat} (hpos : 1 ≤ n) (hn : n ≤ 31) : Function.Bijective (quarterStep n) :=
  Finite.injective_iff_bijective.1 (quarterStep_injective hpos hn)

/-- Settles O53: the quarter-round is four steps, each of them a bijection of a finite set. -/
theorem quarterRoundIsBijective : Obligations.QuarterRoundIsBijective := by
  have hsteps : (fun x : Word × Word × Word × Word => quarterRound x.1 x.2.1 x.2.2.1 x.2.2.2) =
      quarterStep 7 ∘ quarterStep 8 ∘ quarterStep 12 ∘ quarterStep 16 := funext quarterRound_eq_steps
  rw [Obligations.QuarterRoundIsBijective, hsteps]
  have h16 : Function.Bijective (quarterStep 16) := quarterStep_bijective (by decide) (by decide)
  have h12 : Function.Bijective (quarterStep 12) := quarterStep_bijective (by decide) (by decide)
  have h8 : Function.Bijective (quarterStep 8) := quarterStep_bijective (by decide) (by decide)
  have h7 : Function.Bijective (quarterStep 7) := quarterStep_bijective (by decide) (by decide)
  exact h7.comp (h8.comp (h12.comp h16))

end Sys2Proof.Machine
end

section
/-! PROOFS. The block_keystream_generator (41_block_function.md): quarter-rounds on disjoint words commute (R74), the
permutation as its schedule of quarter-rounds (R66 to R69), and the bytes of a keystream block (R70 to R72). -/

namespace Sys2Proof.Machine

/-! ### What one quarter-round reads and writes -/

/-- The four words that ApplyQR reads and writes (40_quarter_round.md R63). -/
def Quad.positions (q : Quad) : List (Fin 16) := [q.i, q.j, q.k, q.l]

theorem Quad.forall_mem_positions {q : Quad} {P : Fin 16 → Prop} :
    (∀ i ∈ q.positions, P i) ↔ P q.i ∧ P q.j ∧ P q.k ∧ P q.l := by
  simp [positions]

theorem applyQR_getElem_of_not_mem {q : Quad} {i : Fin 16} (hi : i ∉ q.positions) (x : Words) :
    (applyQR x q)[i] = x[i] := by
  have hne : ∀ p ∈ q.positions, (p : Nat) ≠ i := fun p hp h => hi (Fin.ext h ▸ hp)
  obtain ⟨hi, hj, hk, hl⟩ := Quad.forall_mem_positions.1 hne
  simp [applyQR, hi, hj, hk, hl]

/-- A word after a quarter-round depends on that word and the four words read, and on nothing else. -/
theorem applyQR_getElem_congr {x y : Words} {q : Quad} {i : Fin 16} (hq : ∀ p ∈ q.positions, x[p] = y[p])
    (hi : x[i] = y[i]) : (applyQR x q)[i] = (applyQR y q)[i] := by
  obtain ⟨ha, hb, hc, hd⟩ := Quad.forall_mem_positions.1 hq
  simp only [applyQR, ha, hb, hc, hd, Fin.getElem_fin, Vector.getElem_set] at hi ⊢
  rw [hi]

/-! ### Quarter-rounds on disjoint words -/

/-- The second quarter-round computes its words as if the first had not been applied. -/
theorem applyQR_applyQR_getElem_of_mem {p q : Quad} (h : p.positions.Disjoint q.positions) {i : Fin 16}
    (hi : i ∈ q.positions) (x : Words) : (applyQR (applyQR x p) q)[i] = (applyQR x q)[i] := by
  have hread : ∀ k ∈ q.positions, (applyQR x p)[k] = x[k] := fun k hk => applyQR_getElem_of_not_mem (h.symm hk) x
  exact applyQR_getElem_congr hread (hread i hi)

theorem applyQR_comm {p q : Quad} (h : p.positions.Disjoint q.positions) (x : Words) :
    applyQR (applyQR x p) q = applyQR (applyQR x q) p := by
  have hword (i : Fin 16) : (applyQR (applyQR x p) q)[i] = (applyQR (applyQR x q) p)[i] := by
    by_cases hp : i ∈ p.positions
    · rw [applyQR_getElem_of_not_mem (h hp), applyQR_applyQR_getElem_of_mem h.symm hp]
    by_cases hq : i ∈ q.positions
    · rw [applyQR_applyQR_getElem_of_mem h hq, applyQR_getElem_of_not_mem hp]
    · simp only [applyQR_getElem_of_not_mem hp, applyQR_getElem_of_not_mem hq]
  exact Vector.ext fun i hi => hword ⟨i, hi⟩

/-- Quarter-rounds on pairwise disjoint words give the same in every order (41_block_function.md R74). -/
theorem foldl_applyQR_of_perm {qs round : List Quad} (h : qs.Perm round)
    (hd : round.Pairwise fun p q => p.positions.Disjoint q.positions) (x : Words) :
    qs.foldl applyQR x = round.foldl applyQR x := by
  have hcomm : round.Pairwise fun p q => ∀ z, applyQR (applyQR z p) q = applyQR (applyQR z q) p :=
    hd.imp applyQR_comm
  have hall : ∀ p ∈ round, ∀ q ∈ round, ∀ z, applyQR (applyQR z p) q = applyQR (applyQR z q) p :=
    hcomm.forall_of_forall_of_flip (fun _ _ _ => rfl) (hcomm.imp fun h z => (h z).symm)
  exact (h.symm.foldl_eq' hall x).symm

theorem quads_of_a_round_disjoint : ∀ round ∈ [columnQuads, diagonalQuads],
    round.Pairwise fun p q => p.positions.Disjoint q.positions := by
  simp only [List.Disjoint]
  decide

/-- Settles O54: the index sets are compared one pair at a time, and disjoint quarter-rounds commute. -/
theorem quarterRoundsOfARoundCommute : Obligations.QuarterRoundsOfARoundCommute := by
  have hcolumns := quads_of_a_round_disjoint columnQuads (by simp)
  have hdiagonals := quads_of_a_round_disjoint diagonalQuads (by simp)
  refine ⟨fun round hr => ?_, fun x qs => ⟨fun h => ?_, fun h => ?_⟩⟩
  · exact (quads_of_a_round_disjoint round hr).imp fun hd i ⟨hp, hq⟩ => hd hp hq
  · exact foldl_applyQR_of_perm h hcolumns x
  · exact foldl_applyQR_of_perm h hdiagonals x

/-! ### The permutation -/

theorem doubleRound_eq_foldl (x : Words) : doubleRound x = (columnQuads ++ diagonalQuads).foldl applyQR x :=
  List.foldl_append.symm

theorem doubleRounds_eq_foldl (n : Nat) (x : Words) :
    doubleRounds n x = (List.replicate n (columnQuads ++ diagonalQuads)).flatten.foldl applyQR x := by
  induction n generalizing x with
  | zero => rfl
  | succ n ih =>
    rw [doubleRounds, ih, doubleRound_eq_foldl, ← List.foldl_append, List.replicate_succ, List.flatten_cons]

theorem schedule_length (r : Rounds) : (schedule r).length = 4 * r.count := by
  cases r <;> rfl

/-- Settles O55, by induction on the number of double rounds. -/
theorem permutationFollowsSchedule : Obligations.PermutationFollowsSchedule :=
  fun x r => ⟨doubleRounds_eq_foldl (r.count / 2) x, schedule_length r⟩

/-! ### The bytes of a keystream block -/

theorem leBytes_getElem? (w : Word) {j : Nat} (hj : j < 4) : (leBytes w)[j]? = some (w.extractLsb' (8 * j) 8) := by
  interval_cases j <;> rfl

/-- Every word takes four bytes, so byte 4i + j is byte j of word i (42_le_packer.md R93). -/
theorem flatMap_leBytes_getElem? {l : List Word} {i j : Nat} (hi : i < l.length) (hj : j < 4) :
    (l.flatMap leBytes)[4 * i + j]? = some (l[i].extractLsb' (8 * j) 8) := by
  induction l generalizing i with
  | nil => simp at hi
  | cons w l ih =>
    rw [List.flatMap_cons]
    cases i with
    | zero =>
      rw [Nat.mul_zero, Nat.zero_add, List.getElem?_append_left hj]
      exact leBytes_getElem? w hj
    | succ i =>
      have hskip : 4 * (i + 1) + j - (leBytes w).length = 4 * i + j := by rw [leBytes_length]; omega
      rw [List.getElem?_append_right (by rw [leBytes_length]; omega), hskip]
      exact ih (Nat.lt_of_succ_lt_succ hi)

theorem serialize_getElem? (x : Words) {i j : Nat} (hi : i < 16) (hj : j < 4) :
    (serialize x)[4 * i + j]? = some (x[i].extractLsb' (8 * j) 8) :=
  flatMap_leBytes_getElem? (l := x.toList) (by simpa using hi) hj

theorem block_getElem (x : Words) (r : Rounds) {i : Nat} (hi : i < 16) : (block x r)[i] = (permute x r)[i] + x[i] := by
  simp [block, feedForward, add32]

/-- Settles O56: the bytes of the serialized feed-forward sum. -/
theorem keystreamBlockBytes : Obligations.KeystreamBlockBytes := by
  refine fun x r => ⟨ks_length x r, fun i j hi hj => ?_⟩
  rw [ks, serialize_getElem? _ hi hj, block_getElem]

end Sys2Proof.Machine
end

section
/-! PROOFS. The little_endian_state_packer (42_le_packer.md): packing and serializing are inverse (R96), the byte view of a
block's input state and where it places the key and the nonce (R97, R37), the block index (R94), and the data of STATUS
(R95). -/

namespace Sys2Proof.Machine

/-! ### Round trips -/

/-- `le_word` puts its bytes side by side, the first one least significant (42_le_packer.md R89). -/
theorem leWord_eq_append (b0 b1 b2 b3 : Byte) : leWord b0 b1 b2 b3 = b3 ++ b2 ++ b1 ++ b0 := by
  apply BitVec.eq_of_getLsbD_eq
  intro i hi
  simp only [leWord, BitVec.getLsbD_or, BitVec.getLsbD_shiftLeft, BitVec.getLsbD_setWidth, BitVec.getLsbD_append]
  interval_cases i <;> simp

/-- A field above the lowest byte is a field of what stands above that byte. -/
theorem extractLsb'_append_byte {n : Nat} (x : BitVec n) (b : Byte) (start len : Nat) :
    (x ++ b).extractLsb' (start + 8) len = x.extractLsb' start len :=
  BitVec.extractLsb'_append_eq_of_le (Nat.le_add_left 8 start)

/-- Taking a word apart gives back the bytes it was packed from. -/
@[simp] theorem leBytes_leWord (b0 b1 b2 b3 : Byte) : leBytes (leWord b0 b1 b2 b3) = [b0, b1, b2, b3] := by
  have h0 : (b3 ++ b2 ++ b1 ++ b0).extractLsb' 0 8 = b0 := BitVec.extractLsb'_append_eq_right
  have h1 : (b3 ++ b2 ++ b1 ++ b0).extractLsb' 8 8 = b1 :=
    (extractLsb'_append_byte _ b0 0 8).trans BitVec.extractLsb'_append_eq_right
  have h2 : (b3 ++ b2 ++ b1 ++ b0).extractLsb' 16 8 = b2 :=
    (extractLsb'_append_byte _ b0 8 8).trans <| (extractLsb'_append_byte _ b1 0 8).trans
      BitVec.extractLsb'_append_eq_right
  have h3 : (b3 ++ b2 ++ b1 ++ b0).extractLsb' 24 8 = b3 :=
    (extractLsb'_append_byte _ b0 16 8).trans <| (extractLsb'_append_byte _ b1 8 8).trans
      BitVec.extractLsb'_append_eq_left
  rw [leWord_eq_append, leBytes, h0, h1, h2, h3]

theorem packWords_leBytes_append (w : Word) (bs : List Byte) : packWords (leBytes w ++ bs) = w :: packWords bs := by
  simp only [leBytes, List.cons_append, List.nil_append, packWords, leWord_leBytes]

@[simp] theorem packWords_flatMap_leBytes (ws : List Word) : packWords (ws.flatMap leBytes) = ws := by
  induction ws with
  | nil => rfl
  | cons w ws ih => rw [List.flatMap_cons, packWords_leBytes_append, ih]

/-- The bytes of packed words are the bytes that were packed, if no incomplete group was left over
(42_le_packer.md R86). -/
theorem flatMap_leBytes_packWords {bs : List Byte} (h : 4 ∣ bs.length) : (packWords bs).flatMap leBytes = bs := by
  induction bs using packWords.induct with
  | case1 b0 b1 b2 b3 rest ih =>
    have hrest : 4 ∣ rest.length := by simp only [List.length_cons] at h; omega
    simp [packWords, ih hrest]
  | case2 bs hshort =>
    rcases bs with _ | ⟨b0, _ | ⟨b1, _ | ⟨b2, _ | ⟨b3, rest⟩⟩⟩⟩
    · rfl
    case cons.cons.cons.cons => exact (hshort _ _ _ _ _ rfl).elim
    all_goals simp at h

theorem packWords_serialize (x : Words) : packWords (serialize x) = x.toList :=
  packWords_flatMap_leBytes x.toList

/-- A serialized value is packed back into its words, so it determines them (42_le_packer.md R96). -/
theorem serialize_injective : Function.Injective serialize := by
  intro x y h
  have hlist : x.toList = y.toList := by rw [← packWords_serialize, h, packWords_serialize]
  exact Vector.toList_inj.1 hlist

/-- Settles O57: the three round trips, and injectivity from the last of them. -/
theorem packerRoundTrips : Obligations.PackerRoundTrips := by
  refine ⟨leBytes_leWord, leWord_leBytes, fun w => ?_, serialize_injective⟩
  exact packWords_flatMap_leBytes [w]

/-! ### The byte view of an input state -/

/-- Packing gives the words of the list in order (42_le_packer.md R91, R92). -/
theorem packWords_eq_map_wordAt (bs : List Byte) : packWords bs = (List.range (bs.length / 4)).map (wordAt bs) := by
  apply List.ext_getElem
  · simp [packWords_length]
  · intro i hi _
    rw [packWords_getElem, List.getElem_map, List.getElem_range, wordAt]

/-- The counter words of block `idx`'s input state (41_block_function.md R80). -/
def counterWords (m : NonceMode) (idx : Nat) : List Word :=
  match m with
  | .n64 => [BitVec.ofNat 32 idx, BitVec.ofNat 32 (idx / 2 ^ 32)]
  | .n96 => [BitVec.ofNat 32 idx]

/-- The counter words stand between the key and the nonce (10_state.md R20, R21). -/
theorem counterWords_length (m : NonceMode) (idx : Nat) : 12 + (counterWords m idx).length = m.nonceBase := by
  cases m <;> rfl

/-- The input state is the constants, the packed key, the counter and the packed nonce, in this order. -/
theorem inputState_toList {m : NonceMode} {key nonce : List Byte} (hk : key.length = 32) (hn : nonce.length = m.nonceLen)
    (idx : Nat) :
    (inputState m key nonce idx).toList = packWords sigma ++ packWords key ++ counterWords m idx ++ packWords nonce := by
  have hsigma : packWords sigma = [0x61707865, 0x3320646E, 0x79622D32, 0x6B206574] := by decide
  rw [hsigma, packWords_eq_map_wordAt key, packWords_eq_map_wordAt nonce, hk, hn]
  cases m <;> rfl

/-- The byte view of an input state (42_le_packer.md R97). -/
theorem serialize_inputState {m : NonceMode} {key nonce : List Byte} (hk : key.length = 32)
    (hn : nonce.length = m.nonceLen) (idx : Nat) :
    serialize (inputState m key nonce idx) = sigma ++ key ++ (counterWords m idx).flatMap leBytes ++ nonce := by
  have hkey : 4 ∣ key.length := by omega
  have hnonce : 4 ∣ nonce.length := by rw [hn]; cases m <;> decide
  rw [serialize, inputState_toList hk hn, List.flatMap_append, List.flatMap_append, List.flatMap_append,
    flatMap_leBytes_packWords (by decide), flatMap_leBytes_packWords hkey, flatMap_leBytes_packWords hnonce]

/-- A field of a field. -/
theorem extractLsb'_extractLsb'_of_add_le {n : Nat} (x : BitVec n) {start len width outer : Nat}
    (h : start + len ≤ width) : (x.extractLsb' outer width).extractLsb' start len = x.extractLsb' (outer + start) len := by
  ext i hi
  have hin : start + i < width := by omega
  simp [hin, Nat.add_assoc]

/-- The bytes of a 64-bit number are those of its two halves, the lower half first. -/
theorem leU64Bytes_eq_append (v : BitVec 64) :
    leU64Bytes v = leBytes (v.extractLsb' 0 32) ++ leBytes (v.extractLsb' 32 32) := by
  simp only [leBytes, extractLsb'_extractLsb'_of_add_le, Nat.reduceAdd, Nat.reduceLeDiff]
  rfl

/-- Two counter words, the lower half first, show the 64-bit index least significant byte first. -/
theorem flatMap_leBytes_counterWords_n64 (idx : Nat) :
    (counterWords .n64 idx).flatMap leBytes = leU64Bytes (BitVec.ofNat 64 idx) := by
  have hlow : (BitVec.ofNat 64 idx).extractLsb' 0 32 = BitVec.ofNat 32 idx := by
    apply BitVec.eq_of_toNat_eq; simp
  have hhigh : (BitVec.ofNat 64 idx).extractLsb' 32 32 = BitVec.ofNat 32 (idx / 2 ^ 32) := by
    apply BitVec.eq_of_toNat_eq; simp [Nat.shiftRight_eq_div_pow]; omega
  rw [leU64Bytes_eq_append, hlow, hhigh]
  rfl

/-- Settles O58: the byte view, with the counter's bytes in each mode. The bound on the index is not needed: beyond MAXIDX
both sides take it modulo 2^W. -/
theorem inputStateByteView : Obligations.InputStateByteView := by
  intro m key nonce idx hk hn _
  rw [serialize_inputState hk hn]
  cases m
  case n64 => rw [flatMap_leBytes_counterWords_n64]; rfl
  case n96 => rfl

/-! ### Byte placement -/

/-- Key byte 4i + j stands at byte 16 + 4i + j of the byte view, which is byte j of word 4 + i. -/
theorem inputState_key_byte {m : NonceMode} {key nonce : List Byte} (hk : key.length = 32)
    (hn : nonce.length = m.nonceLen) (idx : Nat) {i j : Nat} (hi : i < 8) (hj : j < 4) :
    some ((inputState m key nonce idx)[4 + i].extractLsb' (8 * j) 8) = key[4 * i + j]? := by
  have hsigma : sigma.length = 16 := rfl
  have hoff : 4 * (4 + i) + j - sigma.length = 4 * i + j := by omega
  rw [← serialize_getElem? _ (by omega) hj, serialize_inputState hk hn, List.append_assoc, List.append_assoc,
    List.getElem?_append_right (by omega), hoff, List.getElem?_append_left (by omega)]

/-- Nonce byte 4i + j stands 4 NBASE bytes further on in the byte view, which is byte j of word NBASE + i. -/
theorem inputState_nonce_byte {m : NonceMode} {key nonce : List Byte} (hk : key.length = 32)
    (hn : nonce.length = m.nonceLen) (idx : Nat) {i j : Nat} (hi : m.nonceBase + i < 16) (hj : j < 4) :
    some ((inputState m key nonce idx)[m.nonceBase + i].extractLsb' (8 * j) 8) = nonce[4 * i + j]? := by
  have hbase := counterWords_length m idx
  have hbefore : (sigma ++ key ++ (counterWords m idx).flatMap leBytes).length = 4 * m.nonceBase := by
    simp only [List.length_append, flatMap_leBytes_length, hk, show sigma.length = 16 from rfl]
    omega
  have hoff : 4 * (m.nonceBase + i) + j - 4 * m.nonceBase = 4 * i + j := by omega
  rw [← serialize_getElem? _ hi hj, serialize_inputState hk hn, List.getElem?_append_right (by omega), hbefore, hoff]

/-- Settles O59: INIT leaves the input state of block 0, and its byte view shows where the bytes stand. -/
theorem keyAndNonceBytePlacement : Obligations.KeyAndNonceBytePlacement := by
  intro key nonce s hk hn
  exact ⟨_, exec_init_inputState hk hn, fun _ _ => inputState_key_byte hk hn 0, fun _ _ => inputState_nonce_byte hk hn 0⟩

/-! ### The block index -/

/-- `le_u64` as the rule's own sum, which does not overflow (42_le_packer.md R94). -/
theorem leU64_toNat (b0 b1 b2 b3 b4 b5 b6 b7 : Byte) :
    (leU64 [b0, b1, b2, b3, b4, b5, b6, b7]).toNat =
      b0.toNat + b1.toNat * 2 ^ 8 + b2.toNat * 2 ^ 16 + b3.toNat * 2 ^ 24 + b4.toNat * 2 ^ 32 + b5.toNat * 2 ^ 40 +
        b6.toNat * 2 ^ 48 + b7.toNat * 2 ^ 56 := by
  simp only [leU64, List.take_succ_cons, List.take_zero, leNat, BitVec.toNat_ofNat]
  omega

/-- The bytes of a 64-bit number read back as it: they are its digits to the base 256. -/
theorem leU64_leU64Bytes (v : BitVec 64) : leU64 (leU64Bytes v) = v := by
  have hbytes : leU64Bytes v = [v.extractLsb' 0 8, v.extractLsb' 8 8, v.extractLsb' 16 8, v.extractLsb' 24 8,
      v.extractLsb' 32 8, v.extractLsb' 40 8, v.extractLsb' 48 8, v.extractLsb' 56 8] := rfl
  apply BitVec.eq_of_toNat_eq
  rw [hbytes, leU64_toNat]
  simp only [BitVec.extractLsb'_toNat, Nat.shiftRight_eq_div_pow]
  omega

/-- Settles O60: the sum of the eight bytes, and the read-back from it. -/
theorem blockIndexIsLittleEndian : Obligations.BlockIndexIsLittleEndian :=
  ⟨leU64_toNat, leU64_leU64Bytes⟩

/-! ### STATUS -/

/-- The response that carries one word: RESULT is OK and DLEN is 4 (30_encoding.md R54). -/
theorem mkResponse_ok_leBytes (w : Word) : mkResponse .ok (leBytes w) = ⟨0x00040000, leBytes w⟩ := by
  rw [mkResponse, leBytes_length]; rfl

/-- Settles O36: STATUS responds with the bytes of the register and nothing else. -/
theorem statusReturnsRegister : Obligations.StatusReturnsRegister := by
  intro s
  rw [exec_status, respond, mkResponse_ok_leBytes, leBytes]

end Sys2Proof.Machine
end

section
/-! PROOFS. The setup commands (43_cmd_setup.md): what INIT and RESYNC leave and what they refuse, and that a RESYNC
leaves the engine that a fresh INIT with the new nonce would have built (R110). -/

namespace Sys2Proof.Machine

/-! ### Responses without data -/

/-- RH is the code alone when no data follow it (30_encoding.md R54). -/
theorem respond_nil_eq (r : Result) (s : State) :
    respond r [] s = { s with responses := s.responses ++ [⟨r.code, []⟩] } := by
  rw [respond, mkResponse_error]

theorem fail_eq (r : Result) (s : State) : fail r s = { s with responses := s.responses ++ [⟨r.code, []⟩] } :=
  respond_nil_eq r s

/-! ### INIT -/

/-- Settles O15: INIT's effect with R80's words, and its response written out. -/
theorem initLoadsKeyAndNonce : Obligations.InitLoadsKeyAndNonce := by
  intro key nonce s hk hn
  rw [exec_init_inputState hk hn, respond_nil_eq, Result.code]

theorem exec_init_of_key_length {key : List Byte} (hk : key.length ≠ 32) (nonce : List Byte) (s : State) :
    exec (.init key nonce) s = .next (fail .invalidKeyLength s) := by
  rw [exec, execInit, if_pos hk]

theorem exec_init_of_nonce_length {key nonce : List Byte} {s : State} (hk : key.length = 32)
    (hn : nonce.length ≠ s.cfg.nonceMode.nonceLen) :
    exec (.init key nonce) s = .next (fail .invalidNonceLength s) := by
  rw [exec, execInit, if_neg (not_not.2 hk), if_pos hn]

/-- Settles O16: the two failing branches, the key's before the nonce's. -/
theorem initRejectsWrongLengths : Obligations.InitRejectsWrongLengths := by
  intro key nonce s
  refine ⟨fun hk => ?_, fun hk hn => ?_⟩
  · rw [exec_init_of_key_length hk, fail_eq, Result.code]
  · have hn : nonce.length ≠ s.cfg.nonceMode.nonceLen := hn
    rw [exec_init_of_nonce_length hk hn, fail_eq, Result.code]

/-! ### RESYNC -/

/-- Loading a nonce of the configured length writes every word from NBASE on (42_le_packer.md R92). -/
theorem putWords_nonce_getElem {m : NonceMode} {nonce : List Byte} (hn : nonce.length = m.nonceLen) (S : Words)
    {i : Nat} (hi : i < 16) :
    (putWords (packWords nonce) m.nonceBase S)[i] =
      if m.nonceBase ≤ i then wordAt nonce (i - m.nonceBase) else S[i] := by
  have hquad : nonce.length = 4 * (16 - m.nonceBase) := by cases m <;> exact hn
  have hlast : m.nonceBase ≤ i ∧ i < m.nonceBase + (16 - m.nonceBase) ↔ m.nonceBase ≤ i := by omega
  simp only [putWords_packWords_getElem nonce _ _ hquad, hlast, wordAt]

/-- RESYNC's writes, with the words as the rule's own formula has them (43_cmd_setup.md R106). -/
theorem resynced_S {nonce : List Byte} {s : State} (hn : nonce.length = s.cfg.nonceMode.nonceLen) :
    (resetStream (loadNonce nonce s)).S = resyncedWords s.cfg.nonceMode s.S nonce := by
  have hword := fun i hi => putWords_nonce_getElem (i := i) hn s.S hi
  simp only [resetStream_S, loadNonce_S, loadNonce_cfg]
  generalize putWords _ _ _ = loaded at hword ⊢
  ext i hi : 1
  cases hm : s.cfg.nonceMode <;> rw [hm] at hword <;>
    interval_cases i <;> simp [withCtr, hword, NonceMode.nonceBase, resyncedWords]

theorem exec_resync_resyncedWords {nonce : List Byte} {s : State} (hi : s.initF = true)
    (hn : nonce.length = s.cfg.nonceMode.nonceLen) :
    exec (.resync nonce) s =
      .next (respond .ok [] { s with S := resyncedWords s.cfg.nonceMode s.S nonce, exh := false, ofs := 0 }) := by
  rw [exec_resync_ok hi hn, ← resynced_S hn]
  rfl

/-- Settles O17: RESYNC's effect with R106's words, and its response written out. -/
theorem resyncReplacesNonceAndRestarts : Obligations.ResyncReplacesNonceAndRestarts := by
  intro nonce s hi hn
  rw [exec_resync_resyncedWords hi hn, respond_nil_eq, Result.code]

theorem exec_resync_of_nonce_length {nonce : List Byte} {s : State} (hi : s.initF = true)
    (hn : nonce.length ≠ s.cfg.nonceMode.nonceLen) :
    exec (.resync nonce) s = .next (fail .invalidNonceLength s) := by
  rw [exec, execResync, whenInitialized_true hi, if_pos hn]

/-- Settles O18: before INIT every command but INIT and STATUS fails; after it RESYNC checks the nonce's length. -/
theorem resyncRejects : Obligations.ResyncRejects := by
  intro nonce s
  refine ⟨fun hi => ?_, fun hi hn => ?_⟩
  · rw [exec_of_not_initF (i := .resync nonce) hi nofun nofun, fail_eq, Result.code]
  · rw [exec_resync_of_nonce_length hi hn, fail_eq, Result.code]

/-! ### Runs of commands -/

theorem execAll_cons_of_next {i : Instr} {s t : State} (h : exec i s = .next t) (cs : List Instr) :
    execAll (i :: cs) s = execAll cs t := by
  rw [execAll, h]

/-- Commands after a run see the state that the run left (20_memory.md R42). -/
theorem execAll_append_of_next {cs : List Instr} {s t : State} (h : execAll cs s = .next t) (ds : List Instr) :
    execAll (cs ++ ds) s = execAll ds t := by
  induction cs generalizing s with
  | nil => rw [← Host.Outcome.next.inj h, List.nil_append]
  | cons i cs ih =>
    obtain ⟨u, hu⟩ := exists_exec_eq_next i s
    rw [execAll_cons_of_next hu] at h
    rw [List.cons_append, execAll_cons_of_next hu, ih h]

/-- The ports carry a run of commands and do not steer it: one state and one list of responses serve for every content
of the ports. -/
theorem execAll_ports (cs : List Instr) (s : State) : ∃ (v : State) (rs : List Response), ∀ a b c,
    execAll cs { s with inputs := a, responses := b, free := c } =
      .next { v with inputs := a, responses := b ++ rs, free := c } := by
  induction cs generalizing s with
  | nil => exact ⟨s, [], fun a b c => by rw [execAll, List.append_nil]⟩
  | cons i cs ih =>
    obtain ⟨S', f, e, o, r, hi⟩ := exec_ports i s
    obtain ⟨v, rs, hcs⟩ := ih ⟨s.cfg, S', f, e, o, [], [], 0⟩
    refine ⟨v, r :: rs, fun a b c => ?_⟩
    rw [execAll_cons_of_next (hi a b c), hcs a (b ++ [r]) c, List.append_assoc, List.singleton_append]

/-- The two states agree in every register of the engine; their ports may differ. -/
structure SameEngine (t u : State) : Prop where
  cfg : t.cfg = u.cfg
  S : t.S = u.S
  initF : t.initF = u.initF
  exh : t.exh = u.exh
  ofs : t.ofs = u.ofs

theorem SameEngine.eq_with_ports {t u : State} (h : SameEngine t u) :
    u = { t with inputs := u.inputs, responses := u.responses, free := u.free } := by
  rw [h.cfg, h.S, h.initF, h.exh, h.ofs]

/-- Engines that agree in every register answer a run of commands alike. -/
theorem SameEngine.execAll_responses {t u : State} (h : SameEngine t u) (cs : List Instr) :
    ∃ t' u' rs, execAll cs t = .next t' ∧ execAll cs u = .next u' ∧
      t'.responses = t.responses ++ rs ∧ u'.responses = u.responses ++ rs := by
  obtain ⟨v, rs, hrun⟩ := execAll_ports cs t
  have hu := hrun u.inputs u.responses u.free
  rw [← h.eq_with_ports] at hu
  exact ⟨_, _, rs, hrun t.inputs t.responses t.free, hu, rfl, rfl⟩

/-! ### Resync independence -/

/-- What RESYNC builds on is the same in both states: the configuration, INIT_F, and the words of the constants and the
key (43_cmd_setup.md R106, R108). -/
structure SameKey (s t : State) : Prop where
  cfg : t.cfg = s.cfg
  initF : t.initF = s.initF
  word : ∀ (k : Nat) (hk : k < 12), t.S[k] = s.S[k]

theorem SameKey.refl (s : State) : SameKey s s := ⟨rfl, rfl, fun _ _ => rfl⟩

theorem SameKey.trans {s t u : State} (hst : SameKey s t) (htu : SameKey t u) : SameKey s u :=
  ⟨htu.cfg.trans hst.cfg, htu.initF.trans hst.initF, fun k hk => (htu.word k hk).trans (hst.word k hk)⟩

theorem exists_init_of_opc {i : Instr} (h : i.opc = 0x01) : ∃ key nonce, i = .init key nonce := by
  cases i with
  | init key nonce => exact ⟨key, nonce, rfl⟩
  | resync | seek | ksblk | ksblkIdx | combine | status => simp [Instr.opc] at h

/-- The effect of a command other than INIT leaves constants, key and INIT_F. -/
theorem Effect.sameKey {i : Instr} {s u : State} (h : Effect i s u) (hinit : ∀ key nonce, i ≠ .init key nonce) :
    SameKey s u := by
  obtain ⟨hcfg, -⟩ := h.frame
  refine ⟨hcfg, ?_, fun k hk => ?_⟩
  · obtain hsame | ⟨-, key, nonce, hi⟩ := h.initF
    · exact hsame
    · exact absurd hi (hinit key nonce)
  · by_contra hne
    obtain ⟨key, nonce, hi⟩ := exists_init_of_opc (h.opc_eq_init_of_word_ne hk hne)
    exact hinit key nonce hi

/-- Every command but a successful INIT leaves constants, key and INIT_F. -/
theorem sameKey_of_exec {i : Instr} {s t : State} (h : exec i s = .next t)
    (hinit : ∀ key nonce, i = .init key nonce → key.length ≠ 32 ∨ nonce.length ≠ s.cfg.nonceMode.nonceLen) :
    SameKey s t := by
  obtain ⟨r, rfl⟩ | ⟨u, data, hu, rfl⟩ := exec_next_cases h
  · exact ⟨rfl, rfl, fun _ _ => rfl⟩
  · suffices hsu : SameKey s u from ⟨hsu.cfg, hsu.initF, hsu.word⟩
    refine hu.sameKey fun key nonce hi => ?_
    subst hi
    cases hu with
    | init hk hn => exact (hinit key nonce rfl).elim (absurd hk) (absurd hn)

theorem execAll_sameKey (cs : List Instr) (s : State)
    (hcs : ∀ key nonce, .init key nonce ∈ cs → key.length ≠ 32 ∨ nonce.length ≠ s.cfg.nonceMode.nonceLen) :
    ∃ t, execAll cs s = .next t ∧ SameKey s t := by
  induction cs generalizing s with
  | nil => exact ⟨s, rfl, .refl s⟩
  | cons i cs ih =>
    obtain ⟨u, hu⟩ := exists_exec_eq_next i s
    have hsu := sameKey_of_exec hu fun key nonce hi => hcs key nonce (hi ▸ List.mem_cons_self)
    obtain ⟨t, ht, hut⟩ := ih u fun key nonce hmem => by
      rw [cfg_of_exec hu]
      exact hcs key nonce (List.mem_cons_of_mem i hmem)
    exact ⟨t, (execAll_cons_of_next hu cs).trans ht, hsu.trans hut⟩

/-- Over the constants and the key of an earlier INIT, RESYNC's words are the input state of the new nonce's block 0. -/
theorem resyncedWords_eq_inputState {m : NonceMode} {key nonce : List Byte} {idx : Nat} {S : Words}
    (hS : ∀ (k : Nat) (hk : k < 12), S[k] = (inputState m key nonce idx)[k]) (nonce' : List Byte) :
    resyncedWords m S nonce' = inputState m key nonce' 0 := by
  cases m <;> simp [resyncedWords, hS, inputState]

/-- The engine stands at the start of the stream of (key, nonce): S is the input state of its block 0
(41_block_function.md R80; 43_cmd_setup.md R100). -/
structure AtStart (conf : Config) (key nonce : List Byte) (s : State) : Prop where
  cfg : s.cfg = conf
  S : s.S = inputState conf.nonceMode key nonce 0
  initF : s.initF = true
  exh : s.exh = false
  ofs : s.ofs = 0

/-- A start says all of the engine but its ports. -/
theorem AtStart.sameEngine {cfg : Config} {key nonce : List Byte} {t u : State} (ht : AtStart cfg key nonce t)
    (hu : AtStart cfg key nonce u) : SameEngine t u :=
  ⟨ht.cfg.trans hu.cfg.symm, ht.S.trans hu.S.symm, ht.initF.trans hu.initF.symm, ht.exh.trans hu.exh.symm,
    ht.ofs.trans hu.ofs.symm⟩

theorem exists_exec_init_atStart {key nonce : List Byte} {s : State} (hk : key.length = 32)
    (hn : nonce.length = s.cfg.nonceMode.nonceLen) :
    ∃ t, exec (.init key nonce) s = .next t ∧ AtStart s.cfg key nonce t :=
  ⟨_, exec_init_inputState hk hn, rfl, rfl, rfl, rfl, rfl⟩

/-- As long as constants and key are those of a start, RESYNC leads to the start of the new nonce's stream. -/
theorem AtStart.exists_exec_resync {cfg : Config} {key nonce nonce' : List Byte} {s t : State}
    (hs : AtStart cfg key nonce s) (hst : SameKey s t) (hn : nonce'.length = cfg.nonceMode.nonceLen) :
    ∃ u, exec (.resync nonce') t = .next u ∧ AtStart cfg key nonce' u := by
  obtain rfl : t.cfg = cfg := hst.cfg.trans hs.cfg
  have hi : t.initF = true := hst.initF.trans hs.initF
  have hwords : resyncedWords t.cfg.nonceMode t.S nonce' = inputState t.cfg.nonceMode key nonce' 0 :=
    resyncedWords_eq_inputState (nonce := nonce) (idx := 0) (fun k hk => by rw [hst.word k hk, hs.S]) nonce'
  exact ⟨_, exec_resync_resyncedWords hi hn, rfl, hwords, hi, rfl, rfl⟩

/-- Settles O19: the commands between INIT and RESYNC leave constants and key, so RESYNC leads where a fresh INIT leads,
to the start of the new nonce's stream; engines that agree in every register then answer alike. -/
theorem resyncEqualsFreshInit : Obligations.ResyncEqualsFreshInit := by
  intro s key n1 n2 cs hk hn1 hn2 hcs
  obtain ⟨v, hinit, hv⟩ := exists_exec_init_atStart hk hn1
  obtain ⟨w, hbetween, hvw⟩ := execAll_sameKey cs v (by rwa [hv.cfg])
  obtain ⟨t, hresync, ht⟩ := hv.exists_exec_resync hvw hn2
  obtain ⟨u, hfresh, hu⟩ := exists_exec_init_atStart (s := State.powerOn s.cfg) hk hn2
  have hrun : execAll (.init key n1 :: cs) s = .next w := (execAll_cons_of_next hinit cs).trans hbetween
  have hsame : SameEngine t u := ht.sameEngine hu
  exact ⟨t, u, (execAll_append_of_next hrun _).trans (execAll_cons_of_next hresync []),
    execAll_cons_of_next hfresh [], hsame.S, hsame.initF, hsame.exh, hsame.ofs, hsame.execAll_responses⟩

end Sys2Proof.Machine
end

section
/-! PROOFS. SEEK, KSBLK_IDX and KSBLK (44_cmd_stream.md R111 to R121): the keystream reads no counter word, and what the
three commands answer within MAXIDX and beyond it. -/

namespace Sys2Proof.Machine

/-! ### Responses with data -/

/-- RH holds the number of data bytes above its low half, which is 0 for OK (30_encoding.md R54). -/
theorem mkResponse_ok_eq (data : List Byte) :
    mkResponse .ok data = ⟨BitVec.ofNat 32 (data.length * 65536), data⟩ := by
  have hheader : BitVec.ofNat 32 data.length <<< 16 = BitVec.ofNat 32 (data.length * 65536) := by
    apply BitVec.eq_of_toNat_eq
    simp [Nat.shiftLeft_eq]
  simp [mkResponse, Result.code, hheader]

/-- A block answers with DLEN 64. -/
theorem mkResponse_ok_ks (x : Words) (r : Rounds) : mkResponse .ok (ks x r) = ⟨0x00400000, ks x r⟩ := by
  rw [mkResponse_ok_eq, ks_length]
  rfl

/-! ### The keystream and the counter words -/

theorem SameOffCounter.refl (m : NonceMode) (S : Words) : SameOffCounter m S S := fun _ _ _ => rfl

theorem SameOffCounter.trans {m : NonceMode} {S T U : Words} (hST : SameOffCounter m S T)
    (hTU : SameOffCounter m T U) : SameOffCounter m S U :=
  fun k hk hc => (hST k hk hc).trans (hTU k hk hc)

theorem sameOffCounter_withCtr (m : NonceMode) (S : Words) (idx : Nat) : SameOffCounter m S (withCtr m S idx) :=
  fun _ hk hc => (withCtr_getElem_of_not_counterWord hc S idx hk).symm

/-- A counter write makes states alike that differ in counter words only. -/
theorem SameOffCounter.withCtr_eq {m : NonceMode} {S T : Words} (h : SameOffCounter m S T) (idx : Nat) :
    withCtr m S idx = withCtr m T idx := by
  ext k hk : 1
  cases hc : counterWord m k
  · rw [withCtr_getElem_of_not_counterWord hc, withCtr_getElem_of_not_counterWord hc, h k hk hc]
  · exact withCtr_getElem_of_counterWord hc S T idx hk

theorem SameOffCounter.ksByte_eq {cfg : Config} {S T : Words} (h : SameOffCounter cfg.nonceMode S T) (p : Nat) :
    ksByte cfg S p = ksByte cfg T p := by
  rw [ksByte, ksByte, h.withCtr_eq]

/-- Byte `k` of block `idx` is KSByte(64 idx + k) (41_block_function.md R76). -/
theorem ks_withCtr_getElem? (cfg : Config) (S : Words) (idx : Nat) {k : Nat} (hk : k < 64) :
    (ks (withCtr cfg.nonceMode S idx) cfg.rounds)[k]? = some (ksByte cfg S (idx * 64 + k)) := by
  have hblock : (idx * 64 + k) / 64 = idx := by omega
  have hbyte : (idx * 64 + k) % 64 = k := by omega
  rw [ksByte, hblock, hbyte, List.getD_eq_getElem _ _ (by rwa [ks_length]), List.getElem?_eq_getElem]

/-! ### Block indices -/

theorem toNat_le_maxIdx_of_n64 {m : NonceMode} (hm : m = .n64) (idx : BitVec 64) : idx.toNat ≤ m.maxIdx := by
  have hlt := idx.isLt
  rw [hm, maxIdx_n64]
  omega

theorem le_maxIdx_iff_of_n96 {m : NonceMode} (hm : m = .n96) (n : Nat) : n ≤ m.maxIdx ↔ n < 2 ^ 32 := by
  rw [hm, maxIdx_n96]
  omega

/-- An index below 2^32 names a block in both modes. -/
theorem le_maxIdx_of_lt {n : Nat} (h : n < 2 ^ 32) (m : NonceMode) : n ≤ m.maxIdx := by
  cases m
  · rw [maxIdx_n64]; omega
  · rw [maxIdx_n96]; omega

theorem ofNat_toNat_eq_low (idx : BitVec 64) : BitVec.ofNat 32 idx.toNat = idx.extractLsb' 0 32 := by
  apply BitVec.eq_of_toNat_eq
  simp

theorem ofNat_toNat_div_eq_high (idx : BitVec 64) :
    BitVec.ofNat 32 (idx.toNat / 2 ^ 32) = idx.extractLsb' 32 32 := by
  apply BitVec.eq_of_toNat_eq
  rw [BitVec.toNat_ofNat, BitVec.extractLsb'_toNat, Nat.shiftRight_eq_div_pow]

/-! ### SEEK -/

/-- Settles O21: the counter words of the index are its halves, and the cursor is read back from them. -/
theorem seekSetsCounter : Obligations.SeekSetsCounter := by
  intro idx s hi hidx
  have hctr : (setCtr idx.toNat s).ctr = idx.toNat := ctrOf_withCtr _ _ _ hidx
  rw [exec_seek_ok hi hidx, respond_nil_eq]
  refine ⟨_, rfl, ?_, hctr, ?_⟩
  · cases hm : s.cfg.nonceMode <;>
      simp only [setCtr, withCtr, hm, ofNat_toNat_eq_low, ofNat_toNat_div_eq_high, Result.code]
  · exact congrArg (· * 64) hctr

theorem exec_seek_of_gt {idx : BitVec 64} {s : State} (hi : s.initF = true)
    (h : s.cfg.nonceMode.maxIdx < idx.toNat) : exec (.seek idx) s = .next (fail .counterOverflow s) := by
  rw [exec, execSeek, whenInitialized_true hi, if_pos h]

/-- The response and the counter of a SEEK within MAXIDX, as SeekSetsCounter has them. -/
theorem exists_exec_seek {idx : BitVec 64} {s : State} (hi : s.initF = true)
    (h : idx.toNat ≤ s.cfg.nonceMode.maxIdx) :
    ∃ t, exec (.seek idx) s = .next t ∧ t.responses = s.responses ++ [⟨0x00000000, []⟩] ∧ t.ctr = idx.toNat := by
  obtain ⟨t, ht, hfields, hctr, -⟩ := seekSetsCounter idx s hi h
  exact ⟨t, ht, by rw [hfields], hctr⟩

/-- Settles O22: under N96 MAXIDX is 2^32 - 1, and under N64 every index is within it. -/
theorem seekRange : Obligations.SeekRange := by
  intro idx s hi
  refine ⟨fun hm hidx => ?_, fun hm hidx => ?_, fun hm => ?_⟩
  · have hover : s.cfg.nonceMode.maxIdx < idx.toNat := by
      rw [← Nat.not_le, le_maxIdx_iff_of_n96 hm]
      omega
    rw [exec_seek_of_gt hi hover, fail_eq, Result.code]
  · exact exists_exec_seek hi (le_maxIdx_of_lt hidx _)
  · exact exists_exec_seek hi (toNat_le_maxIdx_of_n64 hm idx)

/-! ### KSBLK_IDX -/

theorem exec_ksblkIdx_of_gt {idx : BitVec 64} {s : State} (hi : s.initF = true)
    (h : s.cfg.nonceMode.maxIdx < idx.toNat) : exec (.ksblkIdx idx) s = .next (fail .counterOverflow s) := by
  rw [exec, execKsblkIdx, whenInitialized_true hi, if_pos h]

theorem exec_ksblkIdx_eq {idx : BitVec 64} {s : State} (hi : s.initF = true)
    (h : idx.toNat ≤ s.cfg.nonceMode.maxIdx) :
    exec (.ksblkIdx idx) s = .next { s with responses := s.responses ++
      [⟨0x00400000, ks (withCtr s.cfg.nonceMode s.S idx.toNat) s.cfg.rounds⟩] } := by
  rw [exec_ksblkIdx_ok hi h, respond, mkResponse_ok_ks]

/-- Settles O23: the answer is the block at the index, byte by byte KSByte. -/
theorem ksblkIdxReturnsBlock : Obligations.KsblkIdxReturnsBlock := by
  intro idx s hi hidx
  exact ⟨_, ks_length _ _, exec_ksblkIdx_eq hi hidx, fun _ hk => ks_withCtr_getElem? s.cfg s.S idx.toNat hk⟩

/-- Settles O24: under N96 MAXIDX is 2^32 - 1, and under N64 every index is within it. -/
theorem ksblkIdxRejectsBeyondMaxIdx : Obligations.KsblkIdxRejectsBeyondMaxIdx := by
  intro idx s hi
  refine ⟨fun ⟨hm, hidx⟩ => ?_, fun hwithin => ?_⟩
  · have hover : s.cfg.nonceMode.maxIdx < idx.toNat := by
      rw [← Nat.not_le, le_maxIdx_iff_of_n96 hm]
      omega
    rw [exec_ksblkIdx_of_gt hi hover, fail_eq, Result.code]
  · have hidx : idx.toNat ≤ s.cfg.nonceMode.maxIdx := by
      obtain hm | hlt := hwithin
      · exact toNat_le_maxIdx_of_n64 hm idx
      · exact le_maxIdx_of_lt hlt _
    exact ⟨_, exec_ksblkIdx_eq hi hidx⟩

/-- Settles O25: the block is computed after a counter write, which makes the two states' words alike; the checks before
it read INIT_F and the configuration, which they share. -/
theorem keystreamIgnoresCursor : Obligations.KeystreamIgnoresCursor := by
  refine ⟨fun cfg S T p h => h.ksByte_eq p, fun s t idx hcfg hinit hS => ?_⟩
  obtain hi | hi := Bool.eq_false_or_eq_true s.initF
  · have hti : t.initF = true := hinit.symm.trans hi
    obtain hidx | hover := le_or_gt idx.toNat s.cfg.nonceMode.maxIdx
    · rw [exec_ksblkIdx_eq hi hidx, exec_ksblkIdx_eq hti (hcfg ▸ hidx), ← hcfg, ← hS.withCtr_eq]
      exact ⟨_, rfl, rfl⟩
    · rw [exec_ksblkIdx_of_gt hi hover, exec_ksblkIdx_of_gt hti (hcfg ▸ hover), fail_eq, fail_eq]
      exact ⟨_, rfl, rfl⟩
  · have hti : t.initF = false := hinit.symm.trans hi
    rw [exec_of_not_initF (i := .ksblkIdx idx) hi nofun nofun, exec_of_not_initF (i := .ksblkIdx idx) hti nofun nofun,
      fail_eq, fail_eq]
    exact ⟨_, rfl, rfl⟩

/-! ### KSBLK -/

theorem exec_ksblk_eq {s : State} (hi : s.initF = true) (hx : s.exh = false) :
    exec .ksblk s = .next { s with responses := s.responses ++ [⟨0x00400000, ks s.S s.cfg.rounds⟩] } := by
  rw [exec_ksblk_ok hi hx, respond, mkResponse_ok_ks]

/-- The block KSBLK returns is the one at the counter: writing the counter back changes nothing. -/
theorem ks_getElem?_eq_ksByte (s : State) {k : Nat} (hk : k < 64) :
    (ks s.S s.cfg.rounds)[k]? = some (ksByte s.cfg s.S (s.ctr * 64 + k)) := by
  have hblock := ks_withCtr_getElem? s.cfg s.S s.ctr hk
  rwa [State.ctr, withCtr_ctrOf] at hblock

/-- Settles O26: KSBLK answers the block at the counter, byte by byte KSByte. -/
theorem ksblkReturnsCurrentBlock : Obligations.KsblkReturnsCurrentBlock := by
  intro s hi hx
  exact ⟨_, ks_length _ _, exec_ksblk_eq hi hx, rfl, fun _ hk => ks_getElem?_eq_ksByte s hk⟩

/-- Settles O27: the failing branch of KSBLK, with its response written out. -/
theorem ksblkRejectsWhenExhausted : Obligations.KsblkRejectsWhenExhausted := by
  intro s hi hx
  rw [exec_ksblk_of_exhausted hi hx, fail_eq, Result.code]

end Sys2Proof.Machine
end

section
/-! PROOFS. COMBINE and the cursor (44_cmd_stream.md R123 to R128; 10_state.md R27): the bytes of the answer, the
commands that move the cursor as one operation on the state, and what COMBINE does within LIMIT and past it. -/

namespace Sys2Proof.Machine

/-! ### The bytes of the answer -/

/-- The blockwise keystream gives the rule's own formula (44_cmd_stream.md R123). -/
theorem combineBytes_eq_combineOutput (cfg : Config) (S : Words) (p : Nat) (data : List Byte) :
    combineBytes cfg S p data = combineOutput cfg S p data := by
  apply List.ext_getElem
  · simp [combineBytes, combineOutput]
  · intro k hk _
    have hdata : k < data.length := by simpa [combineBytes] using hk
    obtain ⟨_, hbyte⟩ := List.getElem?_eq_some_iff.1 (keystream_getElem? cfg S p data.length k hdata)
    simp only [combineBytes, combineOutput, List.getElem_zipWith, List.getElem_mapIdx, hbyte]

@[simp] theorem combineOutput_length (cfg : Config) (S : Words) (p : Nat) (data : List Byte) :
    (combineOutput cfg S p data).length = data.length := by
  rw [combineOutput, List.length_mapIdx]

/-- The second part of the data is combined from where the first part ends. -/
theorem combineOutput_append (cfg : Config) (S : Words) (p : Nat) (data rest : List Byte) :
    combineOutput cfg S p (data ++ rest) =
      combineOutput cfg S p data ++ combineOutput cfg S (p + data.length) rest := by
  simp only [combineOutput, List.mapIdx_append, Nat.add_assoc, Nat.add_comm data.length]

/-- The same keystream byte twice cancels (44_cmd_stream.md R126). -/
theorem combineOutput_combineOutput (cfg : Config) (S : Words) (p : Nat) (data : List Byte) :
    combineOutput cfg S p (combineOutput cfg S p data) = data := by
  apply List.ext_getElem
  · simp
  · intro k _ _
    simp only [combineOutput, List.getElem_mapIdx, BitVec.xor_assoc, BitVec.xor_self, BitVec.xor_zero]

theorem SameOffCounter.combineOutput_eq {cfg : Config} {S T : Words} (h : SameOffCounter cfg.nonceMode S T) (p : Nat)
    (data : List Byte) : combineOutput cfg S p data = combineOutput cfg T p data := by
  simp only [combineOutput, h.ksByte_eq]

/-- Over zero bytes the answer is the keystream (44_cmd_stream.md R131). -/
theorem combineOutput_zeros (cfg : Config) (S : Words) (p n : Nat) :
    combineOutput cfg S p (List.replicate n 0) = (List.range n).map fun k => ksByte cfg S (p + k) := by
  apply List.ext_getElem
  · simp
  · intro k _ _
    simp [combineOutput]

/-- The 64 keystream bytes from the start of block `idx` on are the block (41_block_function.md R76). -/
theorem map_ksByte_eq_ks (cfg : Config) (S : Words) (idx : Nat) :
    ((List.range 64).map fun k => ksByte cfg S (idx * 64 + k)) = ks (withCtr cfg.nonceMode S idx) cfg.rounds := by
  apply List.ext_getElem
  · simp
  · intro k hk _
    have hbyte := ks_withCtr_getElem? cfg S idx (k := k) (by simpa using hk)
    obtain ⟨_, hbyte⟩ := List.getElem?_eq_some_iff.1 hbyte
    rw [List.getElem_map, List.getElem_range, hbyte]

/-! ### Moving the cursor -/

theorem State.pos_of_not_exh {s : State} (hx : s.exh = false) : s.pos = s.ctr * 64 + s.ofs.toNat := by
  simp [State.pos, hx]

/-- Before LIMIT the counter words and OFS are the cursor's quotient and remainder (10_state.md R27). -/
theorem State.pos_div_mod {s : State} (hx : s.exh = false) : s.pos / 64 = s.ctr ∧ s.pos % 64 = s.ofs.toNat := by
  have hofs := s.ofs.isLt
  have hpos := State.pos_of_not_exh hx
  omega

theorem ctr_setPos {p : Nat} {s : State} (h : p ≤ s.cfg.nonceMode.limit) :
    (setPos p s).ctr = if p = s.cfg.nonceMode.limit then s.cfg.nonceMode.maxIdx else p / 64 := by
  rw [State.ctr, setPos_cfg, setPos_S]
  apply ctrOf_withCtr
  rw [limit_eq] at h ⊢
  split <;> omega

theorem sameOffCounter_setPos (p : Nat) (s : State) : SameOffCounter s.cfg.nonceMode s.S (setPos p s).S := by
  rw [setPos_S]
  exact sameOffCounter_withCtr _ _ _

theorem setPos_frame (p : Nat) (s : State) :
    setPos p s = { s with S := (setPos p s).S, exh := (setPos p s).exh, ofs := (setPos p s).ofs } := by
  unfold setPos
  split <;> rfl

/-- The start of a block is below LIMIT: SEEK's writes are `SetPos` there (10_state.md R27; 44_cmd_stream.md R113). -/
theorem setPos_block {idx : Nat} {s : State} (h : idx ≤ s.cfg.nonceMode.maxIdx) :
    setPos (idx * 64) s = { setCtr idx s with ofs := 0, exh := false } := by
  have hbelow : idx * 64 ≠ s.cfg.nonceMode.limit := by rw [limit_eq]; omega
  rw [setPos, if_neg hbelow, Nat.mul_div_cancel idx (by decide), Nat.mul_mod_left]
  rfl

/-! ### The state with its cursor at a position and some responses sent -/

/-- What SEEK and COMBINE leave: the cursor at `p`, and the responses `rs` after those already sent
(`exec_seek_eq_moveTo`, `exec_combine_eq_moveTo`). -/
def moveTo (p : Nat) (rs : List Response) (s : State) : State :=
  { setPos p s with responses := s.responses ++ rs }

@[simp] theorem moveTo_cfg (p : Nat) (rs : List Response) (s : State) : (moveTo p rs s).cfg = s.cfg := setPos_cfg p s
@[simp] theorem moveTo_initF (p : Nat) (rs : List Response) (s : State) : (moveTo p rs s).initF = s.initF :=
  setPos_initF p s
@[simp] theorem moveTo_responses (p : Nat) (rs : List Response) (s : State) :
    (moveTo p rs s).responses = s.responses ++ rs := rfl

theorem moveTo_pos {p : Nat} {s : State} (h : p ≤ s.cfg.nonceMode.limit) (rs : List Response) :
    (moveTo p rs s).pos = p := pos_setPos p s h

theorem exhaustedAtEnd_moveTo (p : Nat) (rs : List Response) (s : State) : ExhaustedAtEnd (moveTo p rs s) :=
  exhaustedAtEnd_setPos p s

theorem sameOffCounter_moveTo (p : Nat) (rs : List Response) (s : State) :
    SameOffCounter s.cfg.nonceMode s.S (moveTo p rs s).S := sameOffCounter_setPos p s

/-- Moving the cursor leaves the answer of a COMBINE at a given position. -/
theorem combineOutput_moveTo (p : Nat) (rs : List Response) (s : State) (q : Nat) (data : List Byte) :
    combineOutput s.cfg (moveTo p rs s).S q data = combineOutput s.cfg s.S q data :=
  ((sameOffCounter_moveTo p rs s).combineOutput_eq q data).symm

theorem moveTo_moveTo (p q : Nat) (rs rs' : List Response) (s : State) :
    moveTo q rs' (moveTo p rs s) = moveTo q (rs ++ rs') s := by
  rw [moveTo, setPos_frame]
  simp [moveTo, setPos_S, setPos_exh, setPos_ofs]

/-- A cursor that stays in place leaves the state but for the responses. -/
theorem moveTo_pos_self {s : State} (hend : ExhaustedAtEnd s) (rs : List Response) :
    moveTo s.pos rs s = { s with responses := s.responses ++ rs } := by
  rw [moveTo, setPos_pos s hend]

theorem exec_seek_eq_moveTo {idx : BitVec 64} {s : State} (hi : s.initF = true)
    (h : idx.toNat ≤ s.cfg.nonceMode.maxIdx) :
    exec (.seek idx) s = .next (moveTo (idx.toNat * 64) [⟨0x00000000, []⟩] s) := by
  rw [exec_seek_ok hi h, moveTo, setPos_block h, respond_nil_eq]
  rfl

theorem exec_combine_eq_moveTo {data : List Byte} {s : State} (hi : s.initF = true)
    (h : s.pos + data.length ≤ s.cfg.nonceMode.limit) (dir : Dir) :
    exec (.combine dir data) s =
      .next (moveTo (s.pos + data.length) [mkResponse .ok (combineOutput s.cfg s.S s.pos data)] s) := by
  rw [exec_combine_ok hi h, combineBytes_eq_combineOutput, respond, setPos_responses, moveTo]

theorem exec_seek_moveTo {idx : BitVec 64} {s : State} (hi : s.initF = true)
    (h : idx.toNat ≤ s.cfg.nonceMode.maxIdx) (p : Nat) (rs : List Response) :
    exec (.seek idx) (moveTo p rs s) = .next (moveTo (idx.toNat * 64) (rs ++ [⟨0x00000000, []⟩]) s) := by
  rw [exec_seek_eq_moveTo (by simpa using hi) (by simpa using h), moveTo_moveTo]

theorem exec_combine_moveTo {p : Nat} {data : List Byte} {s : State} (hi : s.initF = true)
    (h : p + data.length ≤ s.cfg.nonceMode.limit) (dir : Dir) (rs : List Response) :
    exec (.combine dir data) (moveTo p rs s) =
      .next (moveTo (p + data.length) (rs ++ [mkResponse .ok (combineOutput s.cfg s.S p data)]) s) := by
  have hpos : (moveTo p rs s).pos = p := moveTo_pos (by omega) rs
  rw [exec_combine_eq_moveTo (by simpa using hi) (by simpa [hpos] using h), hpos, moveTo_cfg, combineOutput_moveTo,
    moveTo_moveTo]

theorem mkResponse_combineOutput (cfg : Config) (S : Words) (p : Nat) (data : List Byte) :
    mkResponse .ok (combineOutput cfg S p data) =
      ⟨BitVec.ofNat 32 (data.length * 65536), combineOutput cfg S p data⟩ := by
  rw [mkResponse_ok_eq, combineOutput_length]

theorem exec_combine_of_gt {data : List Byte} {s : State} (hi : s.initF = true)
    (h : s.cfg.nonceMode.limit < s.pos + data.length) (dir : Dir) :
    exec (.combine dir data) s = .next { s with responses := s.responses ++ [⟨0x00000003, []⟩] } := by
  rw [exec, execCombine, whenInitialized_true hi, if_pos h, fail_eq, Result.code]

/-! ### One COMBINE -/

/-- Settles O28: the answer by the rule's formula, and `SetPos`, which writes counter words, OFS and EXH. -/
theorem combineXorsKeystream : Obligations.CombineXorsKeystream := by
  intro dir data s hi hlimit _
  refine ⟨_, exec_combine_eq_moveTo hi hlimit dir, ?_, moveTo_pos hlimit _, exhaustedAtEnd_moveTo _ _ s,
    sameOffCounter_moveTo _ _ s, ?_⟩
  · rw [moveTo_responses, mkResponse_combineOutput]
  · rw [moveTo, setPos_frame]

/-- Settles O29: the range check fails before any byte is combined. -/
theorem combineRejectsPastLimit : Obligations.CombineRejectsPastLimit := by
  intro dir data s hi hover
  refine exec_combine_of_gt hi ?_ dir
  cases hm : s.cfg.nonceMode
  · simpa [hm, limit_n64] using hover
  · simpa [hm, limit_n96] using hover

/-- The blocks left behind are those whose last byte was passed. -/
theorem div_add_lastBytesConsumed (p n : Nat) : p / 64 + lastBytesConsumed p n = (p + n) / 64 := by
  induction n with
  | zero => simp [lastBytesConsumed]
  | succ n ih =>
    have hcount : lastBytesConsumed p (n + 1) = lastBytesConsumed p n + if (p + n) % 64 = 63 then 1 else 0 := by
      by_cases h : (p + n) % 64 = 63 <;> simp [lastBytesConsumed, List.range_succ, List.filter_append, h]
    rw [hcount]
    split <;> omega

/-- The two counter words under N64 are the halves of the block index (10_state.md R20). -/
theorem withCtr_n64_words (S : Words) {idx : Nat} (h : idx ≤ NonceMode.n64.maxIdx) :
    (withCtr .n64 S idx)[12].toNat = idx % 2 ^ 32 ∧ (withCtr .n64 S idx)[13].toNat = idx / 2 ^ 32 := by
  rw [maxIdx_n64] at h
  refine ⟨by simp [withCtr], ?_⟩
  simp [withCtr]
  omega

/-- Settles O30: the new cursor is `p + LEN`, and below LIMIT the counter is its quotient by 64. -/
theorem combineAdvancesCounter : Obligations.CombineAdvancesCounter := by
  intro dir data s hi hlimit
  have hctr := ctr_setPos hlimit
  refine ⟨_, exec_combine_eq_moveTo hi hlimit dir, fun hbelow => ?_, fun hend => ?_⟩
  · have hne := hbelow.ne
    have hx : s.exh = false := by
      rw [← Bool.not_eq_true, ← s.pos_eq_limit]
      omega
    obtain ⟨hdiv, -⟩ := State.pos_div_mod hx
    rw [if_neg hne] at hctr
    refine ⟨by simp [moveTo, setPos_exh, hne], hctr, by simp [moveTo, setPos_ofs, hne], ?_, fun hm => ?_⟩
    · rw [← hdiv, div_add_lastBytesConsumed]
      exact hctr
    · have hidx : (s.pos + data.length) / 64 ≤ NonceMode.n64.maxIdx := by
        rw [hm, limit_eq] at hbelow
        omega
      have hS : (setPos (s.pos + data.length) s).S = withCtr .n64 s.S ((s.pos + data.length) / 64) := by
        rw [setPos_S, if_neg hne, hm]
      simp only [moveTo, hS]
      exact withCtr_n64_words s.S hidx
  · rw [if_pos hend] at hctr
    exact ⟨by simp [moveTo, setPos_exh, hend], hctr, by simp [moveTo, setPos_ofs, hend]⟩

/-- Settles O31: LEN = 0 is always within LIMIT, and the cursor is written back as it stands. -/
theorem combineOfNothing : Obligations.CombineOfNothing := by
  intro dir s hend
  refine ⟨fun hi => ?_, fun hi => ?_⟩
  · have hnone : mkResponse .ok (combineOutput s.cfg s.S s.pos []) = ⟨0x00000000, []⟩ := mkResponse_error .ok
    rw [exec_combine_eq_moveTo hi (data := []) s.pos_le dir, hnone, List.length_nil, Nat.add_zero, moveTo_pos_self hend]
  · rw [exec_of_not_initF (i := .combine dir []) hi nofun nofun, fail_eq, Result.code]

/-- Settles O35: over zero bytes the answer is the keystream, and 64 bytes of it from the start of a block are the
block. -/
theorem keystreamPseudoReturnsKeystream : Obligations.KeystreamPseudoReturnsKeystream := by
  intro n s hi hlimit _
  have hlimit' : s.pos + (List.replicate n (0 : Byte)).length ≤ s.cfg.nonceMode.limit := by
    rwa [List.length_replicate]
  have hexec := exec_combine_eq_moveTo hi hlimit' .encrypt
  rw [mkResponse_combineOutput, combineOutput_zeros, List.length_replicate] at hexec
  refine ⟨_, execAll_cons_of_next hexec [], rfl, ?_⟩
  rintro rfl hofs hx
  have hpos : s.pos = s.ctr * 64 := by simp [State.pos_of_not_exh hx, hofs]
  refine ⟨?_, moveTo_pos hlimit _, fun hnext => ?_⟩
  · rw [exec_ksblk_eq hi hx, moveTo_responses, hpos, map_ksByte_eq_ks, State.ctr, withCtr_ctrOf]
    rfl
  · have hbelow : s.pos + 64 ≠ s.cfg.nonceMode.limit := by rw [limit_eq]; omega
    have hctr : (setPos (s.pos + 64) s).ctr = (s.pos + 64) / 64 := by rw [ctr_setPos hlimit, if_neg hbelow]
    exact hctr.trans (by omega)

/-! ### COMBINE over the output of a COMBINE -/

/-- Settles O32: SEEK and a COMBINE over the rest of the block move the cursor back, where the output meets the same
keystream bytes. -/
theorem combineIsItsOwnInverse : Obligations.CombineIsItsOwnInverse := by
  refine ⟨fun data s => rfl, fun d1 d2 d3 data skip s hi hx hlimit _ hskip => ?_⟩
  obtain ⟨hdiv, -⟩ := State.pos_div_mod hx
  have hblock : s.ctr ≤ s.cfg.nonceMode.maxIdx := s.ctr_le
  have hidx : (BitVec.ofNat 64 (s.pos / 64)).toNat = s.pos / 64 := by
    have hmax : s.cfg.nonceMode.maxIdx < 2 ^ 64 := by cases s.cfg.nonceMode <;> decide
    rw [BitVec.toNat_ofNat, Nat.mod_eq_of_lt (by omega)]
  have hback : s.pos / 64 * 64 + skip.length = s.pos := by omega
  have hseek (rs) := exec_seek_moveTo (idx := BitVec.ofNat 64 (s.pos / 64)) hi (by omega) (s.pos + data.length) rs
  have hskip (rs) := exec_combine_moveTo (p := s.pos / 64 * 64) (data := skip) hi (by omega) d2 rs
  have hagain (rs) := exec_combine_moveTo (data := combineOutput s.cfg s.S s.pos data) hi
    (by rwa [combineOutput_length]) d3 rs
  rw [hidx] at hseek
  rw [hback] at hskip
  rw [combineOutput_combineOutput, mkResponse_ok_eq data] at hagain
  refine ⟨_, combineOutput s.cfg s.S s.pos data, _, _, exec_combine_eq_moveTo hi hlimit d1, ?_,
    (execAll_cons_of_next (hseek _) _).trans (execAll_cons_of_next (hskip _) []), moveTo_pos s.pos_le _, hagain _,
    (List.append_assoc ..).symm⟩
  rw [moveTo_responses, mkResponse_combineOutput]

end Sys2Proof.Machine
end

section
/-! PROOFS. Runs of COMBINE commands (44_cmd_stream.md R127): the pieces of some data answer what one COMBINE over the
data answers, and the run ends where that one ends or at the first piece that passes LIMIT. -/

namespace Sys2Proof.Machine

/-- The answers to consecutive pieces of data from position `p` on (`execAll_combine`). -/
def pieceAnswers (cfg : Config) (S : Words) : Nat → List (List Byte) → List (List Byte)
  | _, [] => []
  | p, d :: ds => combineOutput cfg S p d :: pieceAnswers cfg S (p + d.length) ds

theorem map_length_pieceAnswers (cfg : Config) (S : Words) (p : Nat) (pieces : List (List Byte)) :
    (pieceAnswers cfg S p pieces).map List.length = pieces.map List.length := by
  induction pieces generalizing p with
  | nil => rfl
  | cons d ds ih => rw [pieceAnswers, List.map_cons, List.map_cons, ih, combineOutput_length]

/-- Put together the answers are the answer to the whole data. -/
theorem flatten_pieceAnswers (cfg : Config) (S : Words) (p : Nat) (pieces : List (List Byte)) :
    (pieceAnswers cfg S p pieces).flatten = combineOutput cfg S p pieces.flatten := by
  induction pieces generalizing p with
  | nil => rfl
  | cons d ds ih => rw [pieceAnswers, List.flatten_cons, List.flatten_cons, ih, combineOutput_append]

/-- Within LIMIT every piece succeeds, each from where the one before it ended. -/
theorem execAll_combine_moveTo {s : State} (hi : s.initF = true) (dir : Dir) (pieces : List (List Byte)) {p : Nat}
    (h : p + pieces.flatten.length ≤ s.cfg.nonceMode.limit) (rs : List Response) :
    execAll (pieces.map (.combine dir)) (moveTo p rs s) =
      .next (moveTo (p + pieces.flatten.length)
        (rs ++ (pieceAnswers s.cfg s.S p pieces).map (mkResponse .ok)) s) := by
  induction pieces generalizing p rs with
  | nil => simp [execAll, pieceAnswers]
  | cons d ds ih =>
    rw [List.flatten_cons, List.length_append, ← Nat.add_assoc] at h
    have hfirst := exec_combine_moveTo (p := p) (data := d) hi (by omega) dir rs
    rw [List.map_cons, execAll_cons_of_next hfirst, ih h]
    simp [pieceAnswers, Nat.add_assoc]

theorem execAll_combine {s : State} (hi : s.initF = true) (hend : ExhaustedAtEnd s) (dir : Dir)
    {pieces : List (List Byte)} (h : s.pos + pieces.flatten.length ≤ s.cfg.nonceMode.limit) :
    execAll (pieces.map (.combine dir)) s =
      .next (moveTo (s.pos + pieces.flatten.length) ((pieceAnswers s.cfg s.S s.pos pieces).map (mkResponse .ok)) s) := by
  have hrun := execAll_combine_moveTo hi dir pieces h []
  rwa [moveTo_pos_self hend, List.append_nil, List.nil_append] at hrun

/-- Pieces that together pass a bound have a first one whose end passes it. -/
theorem exists_first_piece_past {limit : Nat} (pieces : List (List Byte)) {p : Nat} (hp : p ≤ limit)
    (h : limit < p + pieces.flatten.length) :
    ∃ before bad after, pieces = before ++ bad :: after ∧ p + before.flatten.length ≤ limit ∧
      limit < p + before.flatten.length + bad.length := by
  induction pieces generalizing p with
  | nil => simp at h; omega
  | cons d ds ih =>
    obtain hfits | hpast := le_or_gt (p + d.length) limit
    · rw [List.flatten_cons, List.length_append, ← Nat.add_assoc] at h
      obtain ⟨before, bad, after, rfl, hbefore, hbad⟩ := ih hfits h
      refine ⟨d :: before, bad, after, rfl, ?_, ?_⟩ <;>
        simpa only [List.flatten_cons, List.length_append, ← Nat.add_assoc]
    · exact ⟨[], d, ds, rfl, hp, hpast⟩

/-- Settles O33: the run by induction on the pieces, and past LIMIT the run up to the first piece that passes it. -/
theorem chunkingIndependence : Obligations.ChunkingIndependence := by
  intro dir pieces s hi hend _
  have hresponse : (fun o => ⟨BitVec.ofNat 32 (o.length * 65536), o⟩) = mkResponse .ok := (funext mkResponse_ok_eq).symm
  rw [hresponse]
  refine ⟨fun hlimit => ?_, fun hover => ⟨exec_combine_of_gt hi hover dir, ?_⟩⟩
  · refine ⟨setPos (s.pos + pieces.flatten.length) s, pieceAnswers s.cfg s.S s.pos pieces,
      execAll_combine hi hend dir hlimit, map_length_pieceAnswers .., flatten_pieceAnswers .., fun _ => ?_⟩
    rw [exec_combine_eq_moveTo hi hlimit, mkResponse_combineOutput, flatten_pieceAnswers]
    rfl
  · obtain ⟨before, bad, after, hpieces, hbefore, hbad⟩ := exists_first_piece_past pieces s.pos_le hover
    have hpos := moveTo_pos hbefore ((pieceAnswers s.cfg s.S s.pos before).map (mkResponse .ok))
    refine ⟨before, bad, after, _, hpieces, execAll_combine hi hend dir hbefore, hpos, by rwa [hpos],
      ⟨pieceAnswers s.cfg s.S s.pos before, rfl, map_length_pieceAnswers .., flatten_pieceAnswers ..⟩, ?_⟩
    exact exec_combine_of_gt (by simpa using hi) (by rwa [hpos, moveTo_cfg]) dir

end Sys2Proof.Machine
end

section
/-! PROOFS. Seek consistency (44_cmd_stream.md R122): a SEEK reaches the blocks of the stream that INIT started, from
wherever the commands since then have left the engine. -/

namespace Sys2Proof.Machine

/-- The two states are points of one stream: they agree in the configuration, INIT_F and every word of S but the counter
words. -/
structure SameStream (s t : State) : Prop where
  cfg : t.cfg = s.cfg
  initF : t.initF = s.initF
  S : SameOffCounter s.cfg.nonceMode s.S t.S

theorem SameStream.refl (s : State) : SameStream s s := ⟨rfl, rfl, .refl _ _⟩

theorem SameStream.trans {s t u : State} (hst : SameStream s t) (htu : SameStream t u) : SameStream s u :=
  ⟨htu.cfg.trans hst.cfg, htu.initF.trans hst.initF, hst.S.trans (hst.cfg ▸ htu.S)⟩

/-- Only the effect of an INIT or a RESYNC starts another stream (10_state.md R23). -/
theorem Effect.sameStream {i : Instr} {s u : State} (h : Effect i s u) (hinit : ∀ key nonce, i ≠ .init key nonce)
    (hresync : ∀ nonce, i ≠ .resync nonce) : SameStream s u := by
  cases h with
  | init => exact absurd rfl (hinit _ _)
  | resync => exact absurd rfl (hresync _)
  | seek => exact ⟨rfl, rfl, sameOffCounter_withCtr _ _ _⟩
  | combine => exact ⟨setPos_cfg _ _, setPos_initF _ _, sameOffCounter_setPos _ _⟩
  | ksblk | ksblkIdx | status => exact .refl _

/-- Every command but a successful INIT or RESYNC stays in the stream. -/
theorem sameStream_of_exec {i : Instr} {s t : State} (h : exec i s = .next t)
    (hinit : ∀ key nonce, i = .init key nonce → key.length ≠ 32 ∨ nonce.length ≠ s.cfg.nonceMode.nonceLen)
    (hresync : ∀ nonce, i = .resync nonce → nonce.length ≠ s.cfg.nonceMode.nonceLen) : SameStream s t := by
  obtain ⟨r, rfl⟩ | ⟨u, data, hu, rfl⟩ := exec_next_cases h
  · exact ⟨rfl, rfl, .refl _ _⟩
  · suffices hsu : SameStream s u from ⟨hsu.cfg, hsu.initF, hsu.S⟩
    refine hu.sameStream (fun key nonce hi => ?_) (fun nonce hi => ?_)
    · subst hi
      cases hu with
      | init hk hn => exact (hinit key nonce rfl).elim (absurd hk) (absurd hn)
    · subst hi
      cases hu with
      | resync _ hn => exact hresync nonce rfl hn

theorem execAll_sameStream (cs : List Instr) (s : State)
    (hinit : ∀ key nonce, .init key nonce ∈ cs → key.length ≠ 32 ∨ nonce.length ≠ s.cfg.nonceMode.nonceLen)
    (hresync : ∀ nonce, .resync nonce ∈ cs → nonce.length ≠ s.cfg.nonceMode.nonceLen) :
    ∃ t, execAll cs s = .next t ∧ SameStream s t := by
  induction cs generalizing s with
  | nil => exact ⟨s, rfl, .refl s⟩
  | cons i cs ih =>
    obtain ⟨u, hu⟩ := exists_exec_eq_next i s
    have hsu := sameStream_of_exec hu (fun key nonce hi => hinit key nonce (hi ▸ List.mem_cons_self))
      (fun nonce hi => hresync nonce (hi ▸ List.mem_cons_self))
    rw [← hsu.cfg] at hinit hresync
    obtain ⟨t, ht, hut⟩ := ih u (fun key nonce hmem => hinit key nonce (List.mem_cons_of_mem i hmem))
      (fun nonce hmem => hresync nonce (List.mem_cons_of_mem i hmem))
    exact ⟨t, (execAll_cons_of_next hu cs).trans ht, hsu.trans hut⟩

/-! ### From the start of a stream -/

/-- The input states of a stream's blocks differ in the counter alone (41_block_function.md R80). -/
theorem withCtr_inputState (m : NonceMode) (key nonce : List Byte) (a b : Nat) :
    withCtr m (inputState m key nonce a) b = inputState m key nonce b := by
  cases m <;> rfl

/-- At every point of a stream the block at an index is that of the stream's input state. -/
theorem AtStart.withCtr_eq {cfg : Config} {key nonce : List Byte} {s : State} {T : Words}
    (hs : AtStart cfg key nonce s) (hT : SameOffCounter cfg.nonceMode s.S T) (idx : Nat) :
    withCtr cfg.nonceMode T idx = inputState cfg.nonceMode key nonce idx := by
  rw [← hT.withCtr_eq, hs.S, withCtr_inputState]

theorem AtStart.pos_eq_zero {cfg : Config} {key nonce : List Byte} {s : State} (hs : AtStart cfg key nonce s) :
    s.pos = 0 := by
  have hctr : s.ctr = 0 := by
    rw [State.ctr, hs.cfg, hs.S, ← withCtr_inputState _ key nonce 0 0, ctrOf_withCtr _ _ _ (Nat.zero_le _)]
  rw [State.pos_of_not_exh hs.exh, hctr, hs.ofs]
  rfl

/-! ### The two ways to a block -/

theorem exists_execAll_seek_ksblk {idx : BitVec 64} {s : State} (hi : s.initF = true)
    (h : idx.toNat ≤ s.cfg.nonceMode.maxIdx) :
    ∃ t ts, execAll [.seek idx, .ksblk] s = .next t ∧
      t.responses = ts ++ [⟨0x00400000, ks (withCtr s.cfg.nonceMode s.S idx.toNat) s.cfg.rounds⟩] := by
  have hksblk := exec_ksblk_eq (s := respond .ok [] { setCtr idx.toNat s with ofs := 0, exh := false }) hi rfl
  exact ⟨_, _, (execAll_cons_of_next (exec_seek_ok hi h) _).trans (execAll_cons_of_next hksblk []), rfl⟩

/-- COMBINE from byte 0 over all bytes before block `idx`, in any pieces, and then over 64 zero bytes. -/
theorem exists_execAll_combine_zeros {s : State} (hi : s.initF = true) (hend : ExhaustedAtEnd s) (hpos : s.pos = 0)
    (dir : Dir) {pieces : List (List Byte)} {idx : Nat} (h : idx ≤ s.cfg.nonceMode.maxIdx)
    (hlen : pieces.flatten.length = 64 * idx) :
    ∃ u us, execAll (pieces.map (.combine dir) ++ [.combine dir (List.replicate 64 0)]) s = .next u ∧
      u.responses = us ++ [⟨0x00400000, ks (withCtr s.cfg.nonceMode s.S idx) s.cfg.rounds⟩] := by
  have hreach : s.pos + pieces.flatten.length = idx * 64 := by omega
  have hblock : idx * 64 + (List.replicate 64 (0 : Byte)).length ≤ s.cfg.nonceMode.limit := by
    rw [limit_eq, List.length_replicate]; omega
  have hrun := execAll_combine hi hend dir (pieces := pieces) (by omega)
  have hlast (rs) := exec_combine_moveTo hi hblock dir rs
  rw [hreach] at hrun
  rw [combineOutput_zeros, map_ksByte_eq_ks, mkResponse_ok_ks] at hlast
  exact ⟨_, _, (execAll_append_of_next hrun _).trans (execAll_cons_of_next (hlast _) []),
    (List.append_assoc ..).symm⟩

/-- Settles O34: both runs begin at the start of the stream of (key, nonce) and end in the block at the index. -/
theorem seekConsistency : Obligations.SeekConsistency := by
  intro s key nonce k dir pieces cs hk hn hidx _ hlen hinit hresync
  obtain ⟨v, hv, hstart⟩ := exists_exec_init_atStart hk hn
  obtain ⟨w, hw, hvw⟩ := execAll_sameStream cs v (by rwa [hstart.cfg]) (by rwa [hstart.cfg])
  have hcfg : w.cfg = s.cfg := hvw.cfg.trans hstart.cfg
  obtain ⟨t, ts, ht, hts⟩ := exists_execAll_seek_ksblk (s := w) (hvw.initF.trans hstart.initF) (hcfg ▸ hidx)
  obtain ⟨u, us, hu, hus⟩ := exists_execAll_combine_zeros hstart.initF (exhaustedAtEnd_of_not_exh hstart.exh)
    hstart.pos_eq_zero dir (hstart.cfg ▸ hidx) hlen
  rw [hcfg, hstart.withCtr_eq (hstart.cfg ▸ hvw.S)] at hts
  rw [hstart.cfg, hstart.withCtr_eq (.refl _ _)] at hus
  have hrun : execAll (.init key nonce :: cs) s = .next w := (execAll_cons_of_next hv cs).trans hw
  exact ⟨t, u, ts, us, (execAll_append_of_next hrun _).trans ht, (execAll_cons_of_next hv _).trans hu, hts, hus⟩

end Sys2Proof.Machine
end

section
/-! PROOFS. The answer to a command (60_exceptions.md R133 to R140; 30_encoding.md R54): its RESULT, computed from the
command and the state, the number of its data bytes, and the layout of its header. -/

namespace Sys2Proof

/-! ### What a decoded command's operands say of its word and payload -/

theorem lengths_of_decode_init {c : Command} {key nonce : List Byte} (h : decode c = .ok (.init key nonce)) :
    key.length = (klenField c.cw).toNat ∧ nonce.length = (nlenField c.cw).toNat := by
  have hopc : opcField c.cw = 0x01 := opcField_of_decode h
  obtain ⟨hp, op, -, hi⟩ := decode_eq_ok_iff.1 h
  have hpl : plen c.cw = (klenField c.cw).toNat + (nlenField c.cw).toNat := by simp [plen, hopc]
  cases op <;> simp [operandsOf] at hi
  obtain ⟨rfl, rfl⟩ := hi
  simp [hp, hpl]

theorem length_of_decode_resync {c : Command} {nonce : List Byte} (h : decode c = .ok (.resync nonce)) :
    nonce.length = (nlenField c.cw).toNat := by
  have hopc : opcField c.cw = 0x02 := opcField_of_decode h
  obtain ⟨hp, op, -, hi⟩ := decode_eq_ok_iff.1 h
  have hpl : plen c.cw = (nlenField c.cw).toNat := by simp [plen, hopc]
  cases op <;> simp [operandsOf] at hi
  subst hi
  simp [hp, hpl]

end Sys2Proof

namespace Sys2Proof.Machine

theorem leNat_lt (bs : List Byte) : leNat bs < 256 ^ bs.length := by
  induction bs with
  | nil => simp [leNat]
  | cons b bs ih =>
    have hb := b.isLt
    rw [leNat, List.length_cons, Nat.pow_succ]
    omega

/-- `le_u64` loses nothing of eight bytes (42_le_packer.md R94). -/
theorem leU64_toNat_eq_leNat {bs : List Byte} (h : bs.length = 8) : (leU64 bs).toNat = leNat bs := by
  have hlt : leNat bs < 2 ^ 64 := by simpa [h] using leNat_lt bs
  rw [leU64, List.take_of_length_le h.le, BitVec.toNat_ofNat, Nat.mod_eq_of_lt hlt]

/-- The block index of a SEEK or KSBLK_IDX is the number that its payload holds (30_encoding.md R51, R53). -/
theorem index_of_decode {c : Command} {i : Instr} {idx : BitVec 64} (h : decode c = .ok i)
    (hidx : i = .seek idx ∨ i = .ksblkIdx idx) : idx.toNat = leNat c.payload := by
  have hopc := opcField_of_decode h
  obtain ⟨hp, op, -, hi⟩ := decode_eq_ok_iff.1 h
  have hpl : plen c.cw = 8 := by
    obtain rfl | rfl := hidx <;> rw [plen, hopc] <;> rfl
  have hpayload : leU64 c.payload = idx := by
    subst hi
    cases op with
    | SEEK | KSBLK_IDX => simpa [operandsOf] using hidx
    | INIT | RESYNC | KSBLK | COMBINE | STATUS => simp [operandsOf] at hidx
  rw [← hpayload, leU64_toNat_eq_leNat (hp.trans hpl)]

/-! ### The header of a response -/

theorem mkResponse_resultField_le (r : Result) (data : List Byte) : (mkResponse r data).resultField ≤ 0x05 := by
  rw [mkResponse_resultField]; cases r <;> decide

/-- Bits 15:8 lie between RESULT and DLEN (30_encoding.md R54). -/
theorem mkResponse_reserved (r : Result) (data : List Byte) : (mkResponse r data).header.extractLsb' 8 8 = 0 := by
  apply BitVec.eq_of_getLsbD_eq
  intro i hi
  simp only [mkResponse]
  cases r <;> simp only [Result.code] <;> interval_cases i <;> simp

theorem mkResponse_dlen_toNat {data : List Byte} (h : data.length < 65536) (r : Result) :
    (mkResponse r data).dlen.toNat = data.length := by
  rw [mkResponse_dlen, BitVec.toNat_ofNat, Nat.mod_eq_of_lt h]

/-! ### RESULT of a command -/

/-- RESULT of an instruction: the first error that applies, or OK (60_exceptions.md R133 to R138). -/
def resultOf (s : State) : Instr → Result
  | .init key nonce =>
    if key.length ≠ 32 then .invalidKeyLength
    else if nonce.length ≠ s.cfg.nonceMode.nonceLen then .invalidNonceLength
    else .ok
  | .resync nonce =>
    if s.initF = false then .notInitialized
    else if nonce.length ≠ s.cfg.nonceMode.nonceLen then .invalidNonceLength
    else .ok
  | .seek idx | .ksblkIdx idx =>
    if s.initF = false then .notInitialized
    else if idx.toNat > s.cfg.nonceMode.maxIdx then .counterOverflow
    else .ok
  | .ksblk =>
    if s.initF = false then .notInitialized
    else if s.exh = true then .counterOverflow
    else .ok
  | .combine _ data =>
    if s.initF = false then .notInitialized
    else if s.pos + data.length > s.cfg.nonceMode.limit then .counterOverflow
    else .ok
  | .status => .ok

/-- How many data bytes an instruction answers when it succeeds. -/
def dataLength : Instr → Nat
  | .init _ _ | .resync _ | .seek _ => 0
  | .ksblk | .ksblkIdx _ => 64
  | .combine _ data => data.length
  | .status => 4

/-- `exec_cases`, with the RESULT and the number of data bytes named: `resultOf` says which case it is. -/
theorem exec_resultOf_cases (i : Instr) (s : State) :
    exec i s = .next (fail (resultOf s i) s) ∨
      resultOf s i = .ok ∧
        ∃ u data, Effect i s u ∧ data.length = dataLength i ∧ exec i s = .next (respond .ok data u) := by
  cases i with
  | init key nonce =>
    rw [resultOf]
    split_ifs with hk hn
    · exact .inl (exec_init_of_key_length hk nonce s)
    · exact .inl (exec_init_of_nonce_length (not_not.1 hk) hn)
    · exact .inr ⟨rfl, _, _, .init (not_not.1 hk) (not_not.1 hn), rfl, exec_init_ok (not_not.1 hk) (not_not.1 hn)⟩
  | resync nonce =>
    rw [resultOf]
    split_ifs with hi hn
    · exact .inl (exec_of_not_initF hi nofun nofun)
    · exact .inl (exec_resync_of_nonce_length (eq_true_of_ne_false hi) hn)
    · have hi := eq_true_of_ne_false hi
      exact .inr ⟨rfl, _, _, .resync hi (not_not.1 hn), rfl, exec_resync_ok hi (not_not.1 hn)⟩
  | seek idx =>
    rw [resultOf]
    split_ifs with hi hidx
    · exact .inl (exec_of_not_initF hi nofun nofun)
    · exact .inl (exec_seek_of_gt (eq_true_of_ne_false hi) hidx)
    · have hi := eq_true_of_ne_false hi
      exact .inr ⟨rfl, _, _, .seek hi (not_lt.1 hidx), rfl, exec_seek_ok hi (not_lt.1 hidx)⟩
  | ksblk =>
    rw [resultOf]
    split_ifs with hi hx
    · exact .inl (exec_of_not_initF hi nofun nofun)
    · exact .inl (exec_ksblk_of_exhausted (eq_true_of_ne_false hi) hx)
    · have hi := eq_true_of_ne_false hi
      have hx := eq_false_of_ne_true hx
      exact .inr ⟨rfl, _, _, .ksblk hi hx, ks_length _ _, exec_ksblk_ok hi hx⟩
  | ksblkIdx idx =>
    rw [resultOf]
    split_ifs with hi hidx
    · exact .inl (exec_of_not_initF hi nofun nofun)
    · exact .inl (exec_ksblkIdx_of_gt (eq_true_of_ne_false hi) hidx)
    · have hi := eq_true_of_ne_false hi
      exact .inr ⟨rfl, _, _, .ksblkIdx hi (not_lt.1 hidx), ks_length _ _, exec_ksblkIdx_ok hi (not_lt.1 hidx)⟩
  | combine dir data =>
    rw [resultOf]
    split_ifs with hi hlim
    · exact .inl (exec_of_not_initF hi nofun nofun)
    · have hover := exec_combine_of_gt (eq_true_of_ne_false hi) hlim dir
      exact .inl (by rw [hover, fail_eq, Result.code])
    · have hi := eq_true_of_ne_false hi
      exact .inr ⟨rfl, _, _, .combine hi (not_lt.1 hlim), by simp [combineBytes, dataLength],
        exec_combine_ok hi (not_lt.1 hlim)⟩
  | status => exact .inr ⟨rfl, _, _, .status, leBytes_length _, exec_status s⟩

/-- Every instruction answers one response, whose RESULT is `resultOf` (60_exceptions.md R139). -/
theorem exec_answers (i : Instr) (s : State) :
    ∃ t data, exec i s = .next t ∧ t.inputs = s.inputs ∧
      t.responses = s.responses ++ [mkResponse (resultOf s i) data] ∧ data.length ≤ dataLength i := by
  obtain hfail | ⟨hr, u, data, hu, hlen, hok⟩ := exec_resultOf_cases i s
  · exact ⟨_, [], hfail, rfl, rfl, Nat.zero_le _⟩
  · obtain ⟨-, hinputs, hresponses, -⟩ := hu.frame
    exact ⟨_, data, hok, hinputs, by rw [respond_responses, hresponses, hr], hlen.le⟩

theorem dataLength_lt_of_decode {c : Command} {i : Instr} (h : decode c = .ok i) : dataLength i < 65536 := by
  cases i with
  | combine dir data =>
    rw [dataLength, length_of_decode_combine h]
    exact (lenField c.cw).isLt
  | init | resync | seek | ksblk | ksblkIdx | status => rw [dataLength]; decide

/-- Settles O38: before INIT the stream commands fail in stage 2, and INIT and STATUS have no such stage. -/
theorem commandsBeforeInit : Obligations.CommandsBeforeInit := by
  refine ⟨fun i s hi hinit hstatus => ?_, fun i s hcase => ?_⟩
  · rw [exec_of_not_initF hi hinit hstatus, fail_eq, Result.code]
  · obtain ⟨t, data, ht, -, hresponses, -⟩ := exec_answers i s
    refine ⟨t, _, ht, hresponses, ?_⟩
    rw [mkResponse_resultField]
    obtain ⟨key, nonce, rfl⟩ | rfl := hcase
    · rw [resultOf]
      split_ifs <;> decide
    · rw [resultOf]
      decide

/-- RESULT of a decoded command, from its word, its payload and the state, in the order of 60_exceptions.md R138. -/
theorem resultOf_of_decode {c : Command} {i : Instr} (h : decode c = .ok i) (s : State) :
    resultOf s i =
      if (i.opc = 0x02 ∨ i.opc = 0x03 ∨ i.opc = 0x04 ∨ i.opc = 0x05 ∨ i.opc = 0x06) ∧ s.initF = false then
        .notInitialized
      else if i.opc = 0x01 ∧ (klenField c.cw).toNat ≠ 32 then .invalidKeyLength
      else if (i.opc = 0x01 ∨ i.opc = 0x02) ∧ (nlenField c.cw).toNat ≠ s.cfg.nonceMode.nonceLen then .invalidNonceLength
      else if (i.opc = 0x03 ∨ i.opc = 0x05) ∧ leNat c.payload > s.cfg.nonceMode.maxIdx ∨
          i.opc = 0x04 ∧ s.exh = true ∨
          i.opc = 0x06 ∧ s.pos + (lenField c.cw).toNat > s.cfg.nonceMode.limit then .counterOverflow
      else .ok := by
  cases i with
  | init key nonce =>
    obtain ⟨hk, hn⟩ := lengths_of_decode_init h
    simp [resultOf, Instr.opc, hk, hn]
  | resync nonce => simp [resultOf, Instr.opc, length_of_decode_resync h]
  | seek idx => simp [resultOf, Instr.opc, index_of_decode h (.inl rfl)]
  | ksblk => simp [resultOf, Instr.opc]
  | ksblkIdx idx => simp [resultOf, Instr.opc, index_of_decode h (.inr rfl)]
  | combine dir data => simp [resultOf, Instr.opc, length_of_decode_combine h]
  | status => rfl

/-- Settles O39: an illegal word fails first; any other command decodes, and `resultOf` has the rest of the order. -/
theorem resultFollowsPriority : Obligations.ResultFollowsPriority := by
  intro s c rest hin hp opc
  cases hsel : selectRow c.cw with
  | none => exact ⟨_, _, step_of_illegal hin hp hsel, rfl, (if_pos ((illegalWord_eq_true_iff _).2 hsel)).symm⟩
  | some op =>
    have hlegal := (illegalWord_eq_false_iff c.cw).2 ⟨op, hsel⟩
    have hd := decode_eq_ok_iff.2 ⟨hp, op, hsel, rfl⟩
    have hopc : opc = _ := opcField_of_decode hd
    obtain ⟨t, data, ht, -, hresponses, -⟩ := exec_answers (operandsOf c.cw c.payload op) { s with inputs := rest }
    refine ⟨t, _, (step_of_decode_ok hin hd).trans ht, hresponses, ?_⟩
    rw [if_neg (by simp [hlegal]), hopc, mkResponse_resultField, resultOf_of_decode hd]
    simp only [apply_ite Result.code, apply_ite (BitVec.setWidth 8)]
    rfl

/-- A step on a framed command consumes it and answers one response, whose data are as many as DLEN can count. -/
theorem exists_step_answer {s : State} {c : Command} {rest : List HostEvent} (hin : s.inputs = .command c :: rest)
    (hp : c.payload.length = plen c.cw) : ∃ t r data, step s = .next t ∧ t.inputs = rest ∧
      t.responses = s.responses ++ [mkResponse r data] ∧ data.length < 65536 := by
  cases hsel : selectRow c.cw with
  | none => exact ⟨_, _, [], step_of_illegal hin hp hsel, rfl, rfl, by decide⟩
  | some op =>
    have hd := decode_eq_ok_iff.2 ⟨hp, op, hsel, rfl⟩
    obtain ⟨t, data, ht, hinputs, hresponses, hlen⟩ :=
      exec_answers (operandsOf c.cw c.payload op) { s with inputs := rest }
    exact ⟨t, _, data, (step_of_decode_ok hin hd).trans ht, hinputs, hresponses,
      hlen.trans_lt (dataLength_lt_of_decode hd)⟩

/-- Settles O41: the layout of R54 holds of every `mkResponse` whose data are short enough for DLEN. -/
theorem oneResponsePerCommand : Obligations.OneResponsePerCommand := by
  intro s c rest hin hp
  obtain ⟨t, r, data, ht, hinputs, hresponses, hlen⟩ := exists_step_answer hin hp
  exact ⟨t, _, ht, hinputs, hresponses, mkResponse_resultField_le r data, mkResponse_reserved r data,
    mkResponse_dlen_toNat hlen r⟩

end Sys2Proof.Machine
end

section
/-! PROOFS. Errors and service (60_exceptions.md R140, R141, R149, R150): an error writes nothing and can be met again, and
a host that keeps its framing duty is served to the end. -/

namespace Sys2Proof.Machine

/-! ### Errors -/

/-- Settles O40: a step on a command answers an error that writes nothing else, or RESULT is OK. -/
theorem errorChangesNothing : Obligations.ErrorChangesNothing := by
  intro s t c rest hin h
  obtain ⟨r, -, rfl⟩ | ⟨i, u, data, -, -, hu, rfl⟩ := step_command_cases hin h
  · exact ⟨mkResponse r [], rfl, fun _ => ⟨rfl, mkResponse_dlen r [], rfl⟩⟩
  · obtain ⟨-, -, hresponses, -⟩ := hu.frame
    refine ⟨mkResponse .ok data, by rw [respond_responses, hresponses], fun herr => ?_⟩
    exact absurd ((resultField_eq_zero .ok data).2 rfl) herr

/-- `exec_ports` for a step: the rest of the ports carries a framed command and does not steer it. -/
theorem step_command_ports {c : Command} (hp : c.payload.length = plen c.cw) (s : State) : ∃ S' f e o r, ∀ a b n,
    step { s with inputs := .command c :: a, responses := b, free := n } =
      .next ⟨s.cfg, S', f, e, o, a, b ++ [r], n⟩ := by
  cases hsel : selectRow c.cw with
  | none => exact ⟨s.S, s.initF, s.exh, s.ofs, mkResponse .illegalCommand [], fun _ _ _ => step_of_illegal rfl hp hsel⟩
  | some op =>
    have hd := decode_eq_ok_iff.2 ⟨hp, op, hsel, rfl⟩
    obtain ⟨S', f, e, o, r, hexec⟩ := exec_ports (operandsOf c.cw c.payload op) s
    exact ⟨S', f, e, o, r, fun a b n => (step_of_decode_ok rfl hd).trans (hexec a b n)⟩

/-- Settles O42: the error has left every register as it was, and the ports do not steer the second step. -/
theorem retryGivesSameError : Obligations.RetryGivesSameError := by
  intro s t c rest r hin h hresponses herr
  obtain ⟨r', hr', hkept⟩ := errorChangesNothing s t c _ hin h
  obtain rfl : r = r' := by simpa [hr', eq_comm] using hresponses
  obtain ⟨-, -, rfl⟩ := hkept herr
  have hp : c.payload.length = plen c.cw := by
    by_contra hne
    simp [step_of_wrong_length hin hne] at h
  obtain ⟨S', f, e, o, r', hports⟩ := step_command_ports hp s
  have hfirst := hports (.command c :: rest) s.responses s.free
  rw [← hin, h] at hfirst
  obtain ⟨rfl, rfl, rfl, rfl, rfl⟩ : S' = s.S ∧ f = s.initF ∧ e = s.exh ∧ o = s.ofs ∧ r' = r := by
    simpa [eq_comm] using hfirst
  exact ⟨rfl, _, hports rest _ s.free, List.append_assoc .., rfl⟩

/-! ### Service -/

/-- Settles O11: the step with no event is `idle`. -/
theorem idleStepKeepsState : Obligations.IdleStepKeepsState := fun _ => step_of_no_input

/-- A step consumes a dutiful event, and answers one response if the event is a command (60_exceptions.md R150). -/
theorem exists_step_of_keepsDuty {s : State} {e : HostEvent} {rest : List HostEvent} (hin : s.inputs = e :: rest)
    (he : e.keepsDuty = true) :
    ∃ t rs, step s = .next t ∧ t.inputs = rest ∧ t.responses = s.responses ++ rs ∧
      rs.length = ([e].filter HostEvent.isCommand).length := by
  cases e with
  | reset x => exact ⟨_, [], step_of_reset hin, rfl, (List.append_nil _).symm, rfl⟩
  | command c =>
    have hp : c.payload.length = plen c.cw := by simpa [HostEvent.keepsDuty] using he
    obtain ⟨t, r, data, ht, hinputs, hresponses, -⟩ := exists_step_answer hin hp
    exact ⟨t, [mkResponse r data], ht, hinputs, hresponses, rfl⟩

theorem runSteps_succ_of_next {s t : State} (h : step s = .next t) (k : Nat) : runSteps (k + 1) s = runSteps k t := by
  rw [runSteps, h]

/-- Settles O50, by induction on the events presented: the responses of the first event, then those of the others. -/
theorem dutifulHostIsServed : Obligations.DutifulHostIsServed := by
  intro s hduty
  generalize hin : s.inputs = es at hduty ⊢
  induction es generalizing s with
  | nil =>
    refine ⟨[], rfl, fun k hk => ?_⟩
    obtain rfl := Nat.le_zero.1 hk
    exact ⟨s, rfl, hin, (List.append_nil _).symm⟩
  | cons e rest ih =>
    obtain ⟨he, hrest⟩ := List.forall_mem_cons.1 hduty
    obtain ⟨t, new, hstep, hinputs, hnew, hcount⟩ := exists_step_of_keepsDuty hin he
    obtain ⟨rs, hrs, hrun⟩ := ih t hinputs hrest
    have hsplit (l : List HostEvent) : ((e :: l).filter HostEvent.isCommand).length =
        new.length + (l.filter HostEvent.isCommand).length := by
      rw [← List.singleton_append, List.filter_append, List.length_append, hcount]
    refine ⟨new ++ rs, by rw [List.length_append, hsplit, hrs], fun k hk => ?_⟩
    cases k with
    | zero => exact ⟨s, rfl, hin, (List.append_nil _).symm⟩
    | succ k =>
      obtain ⟨u, hu, hleft, hsent⟩ := hrun k (Nat.le_of_succ_le_succ hk)
      refine ⟨u, (runSteps_succ_of_next hstep k).trans hu, hleft, ?_⟩
      rw [hsent, hnew, List.append_assoc, List.take_succ_cons, hsplit, List.take_length_add_append]

end Sys2Proof.Machine
end

section
/-! PROOFS. Reset and configuration (70_reset_and_hazards.md R151, R155): what the reset input leaves, and that no step
writes ROUNDS or NONCE_MODE. -/

namespace Sys2Proof.Machine

/-! ### The configuration -/

/-- Settles O46: idling and reset leave the configuration, an illegal command fails, and an executed one leaves it by
`cfg_of_exec`. -/
theorem configurationNeverChanges : Obligations.ConfigurationNeverChanges := by
  intro s t h
  obtain ⟨-, rfl⟩ | ⟨x, rest, -, rfl⟩ | ⟨c, rest, -, -, hcmd⟩ := step_cases h
  · rfl
  · exact hardwareReset_cfg _
  · obtain ⟨-, rfl⟩ | ⟨i, -, hx⟩ := hcmd
    · exact fail_cfg _ _
    · have hcfg := cfg_of_exec hx
      exact hcfg

/-! ### Reset -/

/-- After a reset STATUS shows the configuration alone (10_state.md R29; 70_reset_and_hazards.md R151). -/
theorem statusWord_hardwareReset (s : State) : statusWord (hardwareReset s) =
    s.cfg.rounds.rcfg.setWidth 32 <<< 8 ||| s.cfg.nonceMode.nmode.setWidth 32 <<< 10 := by
  simp [statusWord, flagBit]

/-- Settles O12: the step is `hardwareReset`, which reads nothing of the interrupted command. -/
theorem resetClearsFlagsAndAbandonsCommand : Obligations.ResetClearsFlagsAndAbandonsCommand := by
  intro s inProgress rest hin
  refine ⟨hardwareReset { s with inputs := rest }, step_of_reset hin, rfl, rfl, rfl, rfl, rfl, rfl, ?_, fun other => ?_⟩
  · exact statusWord_hardwareReset _
  · exact step_of_reset (s := { s with inputs := .reset other :: rest }) rfl

end Sys2Proof.Machine
end

section
/-! PROOFS. The encoding round trip (30_encoding.md R47 to R56): `decode` inverts `encode` on well-formed instructions,
`encode` inverts `decode` on every command that decodes, and the sample words of 95_test_vectors.md section 2.4. -/

namespace Sys2Proof.Machine

/-! ### The block index and its bytes -/

/-- Digits to the base 256 are determined by the number, once their count is. -/
theorem leNat_inj : ∀ {bs bs' : List Byte}, bs.length = bs'.length → leNat bs = leNat bs' → bs = bs'
  | [], [], _, _ => rfl
  | b :: bs, b' :: bs', hlen, hnum => by
    rw [leNat, leNat] at hnum
    have hb := b.isLt
    have hb' := b'.isLt
    have hhead : b = b' := BitVec.eq_of_toNat_eq (by omega)
    have htail : bs = bs' := leNat_inj (Nat.succ.inj hlen) (by omega)
    rw [hhead, htail]

/-- Reading eight bytes as an index loses none of them (42_le_packer.md R94). -/
theorem leU64Bytes_leU64 {bs : List Byte} (h : bs.length = 8) : leU64Bytes (leU64 bs) = bs := by
  have hlen : (leU64Bytes (leU64 bs)).length = 8 := leU64Bytes_length _
  apply leNat_inj (hlen.trans h.symm)
  rw [← leU64_toNat_eq_leNat hlen, leU64_leU64Bytes, leU64_toNat_eq_leNat h]

end Sys2Proof.Machine

namespace Sys2Proof

open Sys2Proof.Machine

/-! ### Lengths as values of the length fields -/

theorem exists_toNat_eq_of_lt {w n : Nat} (h : n < 2 ^ w) : ∃ x : BitVec w, n = x.toNat :=
  ⟨BitVec.ofNatLT n h, rfl⟩

theorem encode_init {key nonce : List Byte} {k n : BitVec 8} (hk : key.length = k.toNat) (hn : nonce.length = n.toNat) :
    encode (.init key nonce) = ⟨wordFK k n, key ++ nonce⟩ := by
  rw [encode, hk, hn, BitVec.ofNat_toNat, BitVec.ofNat_toNat, wordFK]

theorem encode_resync {nonce : List Byte} {n : BitVec 8} (hn : nonce.length = n.toNat) :
    encode (.resync nonce) = ⟨wordFN n, nonce⟩ := by
  rw [encode, hn, BitVec.ofNat_toNat, wordFN]

theorem encode_combine {data : List Byte} {l : BitVec 16} (hl : data.length = l.toNat) (dir : Dir) :
    encode (.combine dir data) = ⟨wordFD dir l, data⟩ := by
  rw [encode, hl, BitVec.ofNat_toNat, wordFD]

/-! ### Rows of the opcode map with operands -/

theorem initRow_mem : (⟨.INIT, 0x00000001, 0x0000FFFF⟩ : OpRow) ∈ opcodeTable := by decide

theorem resyncRow_mem : (⟨.RESYNC, 0x00000002, 0x00FFFFFF⟩ : OpRow) ∈ opcodeTable := by decide

theorem seekRow_mem : (⟨.SEEK, 0x00000003, 0xFFFFFFFF⟩ : OpRow) ∈ opcodeTable := by decide

theorem ksblkIdxRow_mem : (⟨.KSBLK_IDX, 0x00000005, 0xFFFFFFFF⟩ : OpRow) ∈ opcodeTable := by decide

theorem combineRow_mem : (⟨.COMBINE, 0x00000006, 0x0000FEFF⟩ : OpRow) ∈ opcodeTable := by decide

/-- A command whose word matches a row, with the payload its word asks for, decodes by that row. -/
theorem decode_of_row {r : OpRow} (hr : r ∈ opcodeTable) {cw : Word} {payload : List Byte}
    (hcw : cw &&& r.mask = r.pattern) (hp : payload.length = plen cw) :
    decode ⟨cw, payload⟩ = .ok (operandsOf cw payload r.op) :=
  decode_eq_ok_iff.2 ⟨hp, r.op, (selectRow_eq_some_iff hr cw).2 hcw, rfl⟩

/-! ### Decoding what was encoded -/

theorem decode_encode_init {key nonce : List Byte} (h : (Instr.init key nonce).wf = true) :
    decode (encode (.init key nonce)) = .ok (.init key nonce) := by
  have hp := Laws.Framed.init key nonce h
  simp only [Instr.wf, Bool.and_eq_true, decide_eq_true_eq] at h
  obtain ⟨hkey, hnonce⟩ := h
  obtain ⟨k, hk⟩ := exists_toNat_eq_of_lt (w := 8) hkey
  obtain ⟨n, hn⟩ := exists_toNat_eq_of_lt (w := 8) hnonce
  obtain ⟨-, hklen, hnlen, hcw⟩ := wordFK_fields k n
  rw [encode_init hk hn] at hp ⊢
  rw [decode_of_row initRow_mem hcw hp]
  simp [operandsOf, hklen, hnlen, ← hk, ← hn]

theorem decode_encode_resync {nonce : List Byte} (h : (Instr.resync nonce).wf = true) :
    decode (encode (.resync nonce)) = .ok (.resync nonce) := by
  have hp := Laws.Framed.resync nonce h
  simp only [Instr.wf, decide_eq_true_eq] at h
  obtain ⟨n, hn⟩ := exists_toNat_eq_of_lt (w := 8) h
  obtain ⟨-, hnlen, hcw⟩ := wordFN_fields n
  rw [encode_resync hn] at hp ⊢
  rw [decode_of_row resyncRow_mem hcw hp]
  simp [operandsOf, hnlen, ← hn]

theorem decode_encode_combine {dir : Dir} {data : List Byte} (h : (Instr.combine dir data).wf = true) :
    decode (encode (.combine dir data)) = .ok (.combine dir data) := by
  have hp := Laws.Framed.combine dir data h
  simp only [Instr.wf, decide_eq_true_eq] at h
  obtain ⟨l, hl⟩ := exists_toNat_eq_of_lt (w := 16) h
  obtain ⟨-, hlen, hdir, hcw⟩ := wordFD_fields dir l
  rw [encode_combine hl] at hp ⊢
  rw [decode_of_row combineRow_mem hcw hp]
  simp [operandsOf, hlen, hdir, ← hl]

theorem decode_encode_seek (idx : BitVec 64) : decode (encode (.seek idx)) = .ok (.seek idx) := by
  rw [encode, decode_of_row seekRow_mem rfl (leU64Bytes_length idx), operandsOf, leU64_leU64Bytes]

theorem decode_encode_ksblkIdx (idx : BitVec 64) : decode (encode (.ksblkIdx idx)) = .ok (.ksblkIdx idx) := by
  rw [encode, decode_of_row ksblkIdxRow_mem rfl (leU64Bytes_length idx), operandsOf, leU64_leU64Bytes]

/-- Settles O1: each length field holds the length it was made from, and the index bytes read back as the index. -/
theorem decodeInvertsEncode : Obligations.DecodeInvertsEncode := by
  intro i hwf
  cases i with
  | init key nonce => exact decode_encode_init hwf
  | resync nonce => exact decode_encode_resync hwf
  | seek idx => exact decode_encode_seek idx
  | ksblk => rfl
  | ksblkIdx idx => exact decode_encode_ksblkIdx idx
  | combine dir data => exact decode_encode_combine hwf
  | status => rfl

/-! ### Encoding what was decoded -/

/-- The operand lists are as long as fields of 8 and 16 bits say, so they fit them again. -/
theorem wf_of_decode {c : Command} {i : Instr} (h : decode c = .ok i) : i.wf = true := by
  cases i with
  | init key nonce =>
    obtain ⟨hk, hn⟩ := lengths_of_decode_init h
    have hklen := (klenField c.cw).isLt
    have hnlen := (nlenField c.cw).isLt
    simp only [Instr.wf, hk, hn, Bool.and_eq_true, decide_eq_true_eq]
    exact ⟨hklen, hnlen⟩
  | resync nonce =>
    rw [Instr.wf, length_of_decode_resync h, decide_eq_true_eq]
    exact (nlenField c.cw).isLt
  | combine dir data =>
    rw [Instr.wf, length_of_decode_combine h, decide_eq_true_eq]
    exact (lenField c.cw).isLt
  | seek | ksblk | ksblkIdx | status => rfl

/-- A row whose mask has every bit is selected by one word alone. -/
theorem eq_of_full_mask {cw p : Word} (h : cw &&& 0xFFFFFFFF = p) : cw = p :=
  BitVec.and_allOnes.symm.trans h

theorem encode_operandsOf_INIT {cw : Word} {payload : List Byte} (hcw : cw &&& 0x0000FFFF = 0x00000001)
    (hp : payload.length = plen cw) : encode (operandsOf cw payload .INIT) = ⟨cw, payload⟩ := by
  obtain ⟨hk, hn⟩ := lengths_of_decode_init (decode_of_row initRow_mem hcw hp)
  have hopc : opcField cw = 0x01 := opcField_of_mask initRow_mem hcw
  have hpl : plen cw = (klenField cw).toNat + (nlenField cw).toNat := by simp [plen, hopc]
  rw [operandsOf, encode_init hk hn, ← eq_wordFK hcw, ← List.take_add, ← hpl, ← hp, List.take_length]

theorem encode_operandsOf_RESYNC {cw : Word} {payload : List Byte} (hcw : cw &&& 0x00FFFFFF = 0x00000002)
    (hp : payload.length = plen cw) : encode (operandsOf cw payload .RESYNC) = ⟨cw, payload⟩ := by
  have hn := length_of_decode_resync (decode_of_row resyncRow_mem hcw hp)
  have hopc : opcField cw = 0x02 := opcField_of_mask resyncRow_mem hcw
  have hpl : plen cw = (nlenField cw).toNat := by simp [plen, hopc]
  rw [operandsOf, encode_resync hn, ← eq_wordFN hcw, ← hpl, ← hp, List.take_length]

theorem encode_operandsOf_COMBINE {cw : Word} {payload : List Byte} (hcw : cw &&& 0x0000FEFF = 0x00000006)
    (hp : payload.length = plen cw) : encode (operandsOf cw payload .COMBINE) = ⟨cw, payload⟩ := by
  have hl := length_of_decode_combine (decode_of_row combineRow_mem hcw hp)
  have hopc : opcField cw = 0x06 := opcField_of_mask combineRow_mem hcw
  have hpl : plen cw = (lenField cw).toNat := by simp [plen, hopc]
  rw [operandsOf, encode_combine hl, ← eq_wordFD hcw, ← hpl, ← hp, List.take_length]

/-- The operands make up the whole payload, and the row's pattern with the fields the whole word. -/
theorem encode_operandsOf {cw : Word} {payload : List Byte} {op : Opcode} (hop : selectRow cw = some op)
    (hp : payload.length = plen cw) : encode (operandsOf cw payload op) = ⟨cw, payload⟩ := by
  obtain ⟨r, hr, rfl, hcw⟩ := exists_row_of_selectRow hop
  simp only [opcodeTable, List.mem_cons, List.not_mem_nil, or_false] at hr
  obtain rfl | rfl | rfl | rfl | rfl | rfl | rfl := hr
  · exact encode_operandsOf_INIT hcw hp
  · exact encode_operandsOf_RESYNC hcw hp
  · obtain rfl := eq_of_full_mask hcw
    rw [operandsOf, encode, leU64Bytes_leU64 hp]
  · obtain rfl := eq_of_full_mask hcw
    obtain rfl := List.eq_nil_of_length_eq_zero hp
    rfl
  · obtain rfl := eq_of_full_mask hcw
    rw [operandsOf, encode, leU64Bytes_leU64 hp]
  · exact encode_operandsOf_COMBINE hcw hp
  · obtain rfl := eq_of_full_mask hcw
    obtain rfl := List.eq_nil_of_length_eq_zero hp
    rfl

/-- Settles O2: the operands fit their fields, and a row's word and payload are put together again from them. -/
theorem encodeInvertsDecode : Obligations.EncodeInvertsDecode := by
  intro c i h
  refine ⟨wf_of_decode h, ?_⟩
  obtain ⟨hp, op, hop, rfl⟩ := decode_eq_ok_iff.1 h
  exact encode_operandsOf hop hp

/-! ### Sample words -/

theorem decode_of_encode_eq {c : Command} {i : Instr} (hwf : i.wf = true) (h : encode i = c) : decode c = .ok i :=
  h ▸ decodeInvertsEncode i hwf

/-- Settles O7: the legal words are the encodings of their commands, so they decode to them; each illegal word, whose
payload has the length it asks for, selects no row. -/
theorem sampleWordsDecode : Obligations.SampleWordsDecode := by
  refine ⟨?init, ?resync, ?seek, ?ksblk, ?ksblkIdx, ?encrypt, ?decrypt, ?status, ?opcZero, ?unassigned, ?reserved⟩
  case opcZero | unassigned | reserved => exact decode_of_selectRow_none rfl rfl
  all_goals exact decode_of_encode_eq rfl rfl

end Sys2Proof
end
